-- ==== Sys2Proof/Word.lean ====
section
/-! DEFINITION. The word types of the core and the four register names (spec/00_scope.md R5, spec/10_state.md R20). -/

namespace Sys2Proof

/-- A register, a data word, an instruction word, a data address or a code index: 32 bits (R5 `00_scope.md`). -/
abbrev Word := BitVec 32

/-- One byte of an image (R41 `20_memory.md`). -/
abbrev Byte := BitVec 8

/-- The immediate field `i = w[23:0]` of an instruction word (R76 `30_encoding.md`). -/
abbrev Imm := BitVec 24

/-- The four registers of the register file, in the order of their codes (R20, R21 `10_state.md`). -/
inductive Reg where
  | pc
  | in1
  | in2
  | acc
deriving DecidableEq, Repr

end Sys2Proof
end

