-- ==== Sys2Proof/Machine/Flags.lean ====
section
/-! DEFINITION. The core has no flags, condition codes or predicate registers (spec/10_state.md R28). What other machines
compute from flags is here: the ALU, which writes none (spec/40_cycle.md R106), and the jump comparator, which compares ACC
with zero directly (spec/40_cycle.md R107). -/

namespace Sys2Proof.Machine

/-- The ALU operations (R106). -/
inductive AluOp where
  | add
  | sub
  | xor
  | or
  | and
deriving DecidableEq, Repr

/-- The ALU: the low 32 bits of the result, overflow and carry discarded (R106). -/
def alu (op : AluOp) (a b : Word) : Word :=
  match op with
  | .add => a + b
  | .sub => a - b
  | .xor => a ^^^ b
  | .or => a ||| b
  | .and => a &&& b

/-- The jump conditions, in the order of the codes 000 to 111 of R70. -/
inductive Cond where
  | never
  | gt
  | eq
  | ge
  | lt
  | ne
  | le
  | always
deriving DecidableEq, Repr

/-- The jump comparator: signed two's complement against zero (R107). -/
def taken (c : Cond) (acc : Word) : Bool :=
  match c with
  | .never => false
  | .gt => decide (0 < acc.toInt)
  | .eq => acc == 0
  | .ge => decide (0 ≤ acc.toInt)
  | .lt => decide (acc.toInt < 0)
  | .ne => acc != 0
  | .le => decide (acc.toInt ≤ 0)
  | .always => true

end Sys2Proof.Machine
end

