-- ==== Sys2Proof/Config.lean ====
section
/-! DEFINITION. The parameters the spec leaves to the launch of a run (spec/00_scope.md R5, spec/70_reset_and_hazards.md R204).
The core has no free value: spec/93_implementation_defined.md says that no behaviour of the core is "any value". -/

namespace Sys2Proof

/-- UNINIT_POLICY: what a read of a never-written data word does besides returning its value (R5, R46). -/
inductive UninitPolicy where
  | warn
  | stop
  | suppress
deriving DecidableEq, Repr

/-- The launch parameters of R5 with the defaults R5 gives them: STEP_LIMIT, ADDR_LIMIT, UNINIT_POLICY.
They are given at launch and no step changes them (R204). -/
structure LaunchParams where
  stepLimit : Option Nat := none
  addrLimit : Option Nat := none
  uninitPolicy : UninitPolicy := .warn
deriving DecidableEq, Repr

end Sys2Proof
end

