-- ==== Sys2Proof/Syntax.lean ====
section
/-! DEFINITION. The 26 legal instructions, each carrying only the operand fields it uses (spec/30_encoding.md R66). -/

namespace Sys2Proof

/-- A decoded instruction (R66): one constructor per row of spec/opcode_table.json. The immediate is the raw 24-bit
field; its extension is fixed per opcode (R76). Every value of every field is meaningful (R77), so an `Instr` cannot be
ill-formed. The decoder's `Illegal` verdict is no instruction; it is `Decoded.illegal`. -/
inductive Instr where
  | load (d : Reg) (i : Imm)
  | loadin1 (d : Reg) (i : Imm)
  | loadin2 (d : Reg) (i : Imm)
  | loadi (d : Reg) (i : Imm)
  | store (i : Imm)
  | storein1 (i : Imm)
  | storein2 (i : Imm)
  | move (s d : Reg)
  | subi (d : Reg) (i : Imm)
  | addi (d : Reg) (i : Imm)
  | oplusi (d : Reg) (i : Imm)
  | ori (d : Reg) (i : Imm)
  | andi (d : Reg) (i : Imm)
  | sub (d : Reg) (i : Imm)
  | add (d : Reg) (i : Imm)
  | oplus (d : Reg) (i : Imm)
  | or (d : Reg) (i : Imm)
  | and (d : Reg) (i : Imm)
  | nop
  | jump (i : Imm)
  | jumpgt (i : Imm)
  | jumpeq (i : Imm)
  | jumpge (i : Imm)
  | jumplt (i : Imm)
  | jumpne (i : Imm)
  | jumple (i : Imm)
deriving DecidableEq, Repr

end Sys2Proof
end

