-- ==== Sys2Proof/WellFormed.lean ====
section
/-! DEFINITION. Opcodes, and instructions as a programmer writes them before they are checked: an opcode with the operands
that stand on its line (spec/30_encoding.md R66, R81, R83). `SourceInstr.check` names what is wrong with one. A decoded
`Instr` needs no check: its types admit well-formed instructions only (R66, R77). -/

namespace Sys2Proof

/-- The 26 opcodes, in the order of R66. -/
inductive Opcode where
  | load | loadin1 | loadin2 | loadi
  | store | storein1 | storein2 | move
  | subi | addi | oplusi | ori | andi
  | sub | add | oplus | or | and
  | nop | jump | jumpgt | jumpeq | jumpge | jumplt | jumpne | jumple
deriving DecidableEq, Repr

/-- The four opcode families (R61). -/
inductive Family where
  | compute
  | load
  | store
  | jump
deriving DecidableEq, Repr

/-- The opcode of an instruction. -/
def Instr.opcode : Instr → Opcode
  | .load _ _ => .load
  | .loadin1 _ _ => .loadin1
  | .loadin2 _ _ => .loadin2
  | .loadi _ _ => .loadi
  | .store _ => .store
  | .storein1 _ => .storein1
  | .storein2 _ => .storein2
  | .move _ _ => .move
  | .subi _ _ => .subi
  | .addi _ _ => .addi
  | .oplusi _ _ => .oplusi
  | .ori _ _ => .ori
  | .andi _ _ => .andi
  | .sub _ _ => .sub
  | .add _ _ => .add
  | .oplus _ _ => .oplus
  | .or _ _ => .or
  | .and _ _ => .and
  | .nop => .nop
  | .jump _ => .jump
  | .jumpgt _ => .jumpgt
  | .jumpeq _ => .jumpeq
  | .jumpge _ => .jumpge
  | .jumplt _ => .jumplt
  | .jumpne _ => .jumpne
  | .jumple _ => .jumple

/-- The family of an opcode (R61 to R65). -/
def Opcode.family : Opcode → Family
  | .load | .loadin1 | .loadin2 | .loadi => .load
  | .store | .storein1 | .storein2 | .move => .store
  | .subi | .addi | .oplusi | .ori | .andi | .sub | .add | .oplus | .or | .and => .compute
  | .nop | .jump | .jumpgt | .jumpeq | .jumpge | .jumplt | .jumpne | .jumple => .jump

/-- Whether the opcode carries a source register: MOVE only (R66, R81). -/
def Opcode.hasSrc (op : Opcode) : Bool := op == .move

/-- Whether the opcode carries a destination register (R66, R81). -/
def Opcode.hasDst (op : Opcode) : Bool :=
  match op.family with
  | .load => true
  | .compute => true
  | .store => op == .move
  | .jump => false

/-- Whether the opcode carries an immediate: every one but MOVE and NOP (R66, R81). -/
def Opcode.hasImm (op : Opcode) : Bool := op != .move && op != .nop

/-- The opcodes whose immediate literal may carry a leading minus sign (R83). -/
def Opcode.signed : Opcode → Bool
  | .subi | .addi | .sub | .add => true
  | .jump | .jumpgt | .jumpeq | .jumpge | .jumplt | .jumpne | .jumple => true
  | .load | .loadin1 | .loadin2 | .loadi | .store | .storein1 | .storein2 | .move => false
  | .oplusi | .ori | .andi | .oplus | .or | .and | .nop => false

/-- The instruction with this opcode whose operand fields are these; a field the opcode does not use is dropped (R66, R73). -/
def Opcode.instr (s d : Reg) (i : Imm) : Opcode → Instr
  | .load => .load d i
  | .loadin1 => .loadin1 d i
  | .loadin2 => .loadin2 d i
  | .loadi => .loadi d i
  | .store => .store i
  | .storein1 => .storein1 i
  | .storein2 => .storein2 i
  | .move => .move s d
  | .subi => .subi d i
  | .addi => .addi d i
  | .oplusi => .oplusi d i
  | .ori => .ori d i
  | .andi => .andi d i
  | .sub => .sub d i
  | .add => .add d i
  | .oplus => .oplus d i
  | .or => .or d i
  | .and => .and d i
  | .nop => .nop
  | .jump => .jump i
  | .jumpgt => .jumpgt i
  | .jumpeq => .jumpeq i
  | .jumpge => .jumpge i
  | .jumplt => .jumplt i
  | .jumpne => .jumpne i
  | .jumple => .jumple i

/-- An immediate literal as it is written: whether a minus sign stands before it, and its magnitude (R83). -/
structure Literal where
  negative : Bool
  magnitude : Nat
deriving DecidableEq, Repr

/-- The number a literal writes. -/
def Literal.value (l : Literal) : Int := if l.negative then -(l.magnitude : Int) else l.magnitude

/-- An instruction as written on a line: an opcode and the operands given to it (R81). -/
structure SourceInstr where
  opcode : Opcode
  src : Option Reg := none
  dst : Option Reg := none
  imm : Option Literal := none
deriving DecidableEq, Repr

/-- What can be wrong with a written instruction whose tokens are registers and literals (R81, R83, R85). -/
inductive IllFormed where
  | missingOperand
  | extraOperand
  | signNotAccepted
  | outOfRange
deriving DecidableEq, Repr

/-- Whether an operand is given exactly where the opcode carries one. -/
def operandFault (needed given : Bool) : Option IllFormed :=
  match needed, given with
  | true, false => some .missingOperand
  | false, true => some .extraOperand
  | true, true => none
  | false, false => none

/-- The range rule of R83: a signed opcode takes -0x800000 .. 0xffffff, the others 0 .. 0xffffff and no minus sign. -/
def Literal.fault (op : Opcode) (l : Literal) : Option IllFormed :=
  if l.negative && !op.signed then some .signNotAccepted
  else if l.value < -0x800000 ∨ 0xffffff < l.value then some .outOfRange
  else none

/-- The first thing wrong with a written instruction, or none: its operands are those of R66 and its literal is in range. -/
def SourceInstr.check (x : SourceInstr) : Option IllFormed :=
  (operandFault x.opcode.hasSrc x.src.isSome).or <|
  (operandFault x.opcode.hasDst x.dst.isSome).or <|
  (operandFault x.opcode.hasImm x.imm.isSome).or <|
  x.imm.bind (Literal.fault x.opcode)

/-- A written instruction is well-formed when nothing is wrong with it. -/
def SourceInstr.wellFormed (x : SourceInstr) : Bool := x.check == none

end Sys2Proof
end

