-- ==== Sys2Proof/Decode.lean ====
section
/-! DEFINITION. The codec: register codes, the field layout, the decoder over words and over bytes, and the encoder
(spec/10_state.md R21, spec/20_memory.md R41, spec/30_encoding.md R60 to R77).

UNVERIFIED: the numeric family codes, sub-opcode values and field positions are the spec's general knowledge (decision D3);
they stand in this file only. unsafe; log entry 1. -/

namespace Sys2Proof

/-! ### Register codes and the layout table -/

/-- The 2-bit code of a register (R21). -/
def Reg.code : Reg → BitVec 2
  | .pc => 0
  | .in1 => 1
  | .in2 => 2
  | .acc => 3

/-- The register a 2-bit code names; every code names one (R21, R77). -/
def Reg.ofCode (c : BitVec 2) : Reg :=
  match c.toFin with
  | 0 => .pc
  | 1 => .in1
  | 2 => .in2
  | 3 => .acc

/-- The family selected by bits 31:30 (R61). -/
def Family.ofCode (c : BitVec 2) : Family :=
  match c.toFin with
  | 0 => .compute
  | 1 => .load
  | 2 => .store
  | 3 => .jump

/-- The family code, bits 31:30 (R61). -/
def Family.code : Family → BitVec 2
  | .compute => 0b00
  | .load => 0b01
  | .store => 0b10
  | .jump => 0b11

/-- The Load-family opcode of sub-opcode M, bits 29:28 (R67). -/
def loadOpcode (m : BitVec 2) : Opcode :=
  match m.toFin with
  | 0 => .load
  | 1 => .loadin1
  | 2 => .loadin2
  | 3 => .loadi

/-- The Store-family opcode of sub-opcode M, bits 29:28 (R68). -/
def storeOpcode (m : BitVec 2) : Opcode :=
  match m.toFin with
  | 0 => .store
  | 1 => .storein1
  | 2 => .storein2
  | 3 => .move

/-- The Compute-family opcode of MI (bit 29) and F (bits 28:26), or none for the six reserved patterns (R69, R72). -/
def computeOpcode (mi : BitVec 1) (f : BitVec 3) : Option Opcode :=
  match mi.toFin, f.toFin with
  | 0, 0b000 => none
  | 0, 0b001 => none
  | 0, 0b010 => some .subi
  | 0, 0b011 => some .addi
  | 0, 0b100 => some .oplusi
  | 0, 0b101 => some .ori
  | 0, 0b110 => some .andi
  | 0, 0b111 => none
  | 1, 0b000 => none
  | 1, 0b001 => none
  | 1, 0b010 => some .sub
  | 1, 0b011 => some .add
  | 1, 0b100 => some .oplus
  | 1, 0b101 => some .or
  | 1, 0b110 => some .and
  | 1, 0b111 => none

/-- The Jump-family opcode of condition C, bits 29:27 (R70). -/
def jumpOpcode (c : BitVec 3) : Opcode :=
  match c.toFin with
  | 0b000 => .nop
  | 0b001 => .jumpgt
  | 0b010 => .jumpeq
  | 0b011 => .jumpge
  | 0b100 => .jumplt
  | 0b101 => .jumpne
  | 0b110 => .jumple
  | 0b111 => .jump

/-- The bits of a word that an opcode does not use (R73's table). -/
def Opcode.dontCare : Opcode → Word
  | .load | .loadin1 | .loadin2 | .loadi => 0x0C000000
  | .store | .storein1 | .storein2 => 0x0F000000
  | .move => 0x00FFFFFF
  | .subi | .addi | .oplusi | .ori | .andi | .sub | .add | .oplus | .or | .and => 0x00000000
  | .nop => 0x07FFFFFF
  | .jump | .jumpgt | .jumpeq | .jumpge | .jumplt | .jumpne | .jumple => 0x07000000

/-! ### The decoder -/

/-- The decoder's verdict on a word: an instruction, or `Illegal` (R66, R71). -/
inductive Decoded where
  | legal (i : Instr)
  | illegal
deriving DecidableEq, Repr

/-- Why a sequence of bytes gives no instruction: the word they form is `Illegal` (R72), or fewer than four bytes are
left (R41: a truncated trailing word is a format error). -/
inductive DecodeError where
  | illegal (w : Word)
  | truncated (bs : List Byte)
deriving DecidableEq, Repr

/-- The opcode that owns a word, if one does (R71). -/
def decodeOpcode (w : Word) : Option Opcode :=
  match Family.ofCode (w.extractLsb' 30 2) with
  | .load => some (loadOpcode (w.extractLsb' 28 2))
  | .store => some (storeOpcode (w.extractLsb' 28 2))
  | .compute => computeOpcode (w.extractLsb' 29 1) (w.extractLsb' 26 3)
  | .jump => some (jumpOpcode (w.extractLsb' 27 3))

/-- The decoder: total over all 2^32 words (R71). S is bits 27:26, D bits 25:24, i bits 23:0; a field the opcode does not
use is ignored, not checked (R73). -/
def decode (w : Word) : Decoded :=
  match decodeOpcode w with
  | some op =>
    .legal (op.instr (Reg.ofCode (w.extractLsb' 26 2)) (Reg.ofCode (w.extractLsb' 24 2)) (w.extractLsb' 0 24))
  | none => .illegal

/-- A word is canonical when it is legal and its don't-care bits are all 0 (R75). -/
def canonical (w : Word) : Bool :=
  match decode w with
  | .legal i => w &&& i.opcode.dontCare == 0
  | .illegal => false

/-! ### The encoder -/

/-- A field of a word, its least significant bit at bit `lo`. -/
def field {n : Nat} (lo : Nat) (v : BitVec n) : Word := v.setWidth 32 <<< lo

/-- A Load word: family 01, M, S = 0, D, i (R62). -/
def packLoad (m : BitVec 2) (d : Reg) (i : Imm) : Word :=
  field 30 Family.load.code ||| field 28 m ||| field 24 d.code ||| field 0 i

/-- A Store word: family 10, M, S, D, i (R63). -/
def packStore (m s d : BitVec 2) (i : Imm) : Word :=
  field 30 Family.store.code ||| field 28 m ||| field 26 s ||| field 24 d ||| field 0 i

/-- A Compute word: family 00, MI, F, D, i (R64). -/
def packCompute (mi : BitVec 1) (f : BitVec 3) (d : Reg) (i : Imm) : Word :=
  field 30 Family.compute.code ||| field 29 mi ||| field 26 f ||| field 24 d.code ||| field 0 i

/-- A Jump word: family 11, C, three unused bits, i (R65). -/
def packJump (c : BitVec 3) (i : Imm) : Word :=
  field 30 Family.jump.code ||| field 27 c ||| field 0 i

/-- The encoder: the carried fields in their places, 0 in every don't-care bit (R74). -/
def encode : Instr → Word
  | .load d i => packLoad 0b00 d i
  | .loadin1 d i => packLoad 0b01 d i
  | .loadin2 d i => packLoad 0b10 d i
  | .loadi d i => packLoad 0b11 d i
  | .store i => packStore 0b00 0 0 i
  | .storein1 i => packStore 0b01 0 0 i
  | .storein2 i => packStore 0b10 0 0 i
  | .move s d => packStore 0b11 s.code d.code 0
  | .subi d i => packCompute 0 0b010 d i
  | .addi d i => packCompute 0 0b011 d i
  | .oplusi d i => packCompute 0 0b100 d i
  | .ori d i => packCompute 0 0b101 d i
  | .andi d i => packCompute 0 0b110 d i
  | .sub d i => packCompute 1 0b010 d i
  | .add d i => packCompute 1 0b011 d i
  | .oplus d i => packCompute 1 0b100 d i
  | .or d i => packCompute 1 0b101 d i
  | .and d i => packCompute 1 0b110 d i
  | .nop => packJump 0b000 0
  | .jumpgt i => packJump 0b001 i
  | .jumpeq i => packJump 0b010 i
  | .jumpge i => packJump 0b011 i
  | .jumplt i => packJump 0b100 i
  | .jumpne i => packJump 0b101 i
  | .jumple i => packJump 0b110 i
  | .jump i => packJump 0b111 i

/-! ### Words and bytes -/

/-- The four bytes of a word in an image, little-endian (R41). -/
def wordBytes (w : Word) : List Byte :=
  [w.extractLsb' 0 8, w.extractLsb' 8 8, w.extractLsb' 16 8, w.extractLsb' 24 8]

/-- The word that four bytes of an image form, the first byte the least significant (R41). -/
def wordOfBytes (b0 b1 b2 b3 : Byte) : Word := b3 ++ b2 ++ b1 ++ b0

/-- The image of a sequence of words (R41). -/
def imageOfWords (ws : List Word) : List Byte := ws.flatMap wordBytes

/-- The words of an image, or none when a truncated word of 1 to 3 bytes trails it: a format error (R41). -/
def wordsOfImage : List Byte → Option (List Word)
  | [] => some []
  | [_] => none
  | [_, _] => none
  | [_, _, _] => none
  | b0 :: b1 :: b2 :: b3 :: bs => (wordsOfImage bs).map (wordOfBytes b0 b1 b2 b3 :: ·)

/-- The decoder over bytes: one instruction and the bytes after it, or a named reason. -/
def decodeBytes : List Byte → Except DecodeError (Instr × List Byte)
  | b0 :: b1 :: b2 :: b3 :: bs =>
    match decode (wordOfBytes b0 b1 b2 b3) with
    | .legal i => .ok (i, bs)
    | .illegal => .error (.illegal (wordOfBytes b0 b1 b2 b3))
  | bs => .error (.truncated bs)

/-- The bytes of an instruction as the assembler writes them (R86). -/
def encodeBytes (i : Instr) : List Byte := wordBytes (encode i)

/-- The word that a row of spec/opcode_table.json's bits stand for: bits at or above `nbits` are 0. -/
def tableWord (nbits w : Nat) : Word := BitVec.ofNat 32 (w % 2 ^ nbits)

/-- The instruction the decoder reads from the bytes of a table word. -/
def decodeTableWord (nbits w : Nat) : Option Instr :=
  match decodeBytes (wordBytes (tableWord nbits w)) with
  | .ok (i, _) => some i
  | .error _ => none

end Sys2Proof
end

