-- ==== Sys2Proof/Machine/State.lean ====
section
/-! DEFINITION. The state of the core: the register file, the code memory, the data memory with its validity map, the
controller state and the launch parameters (spec/10_state.md R20 to R32, spec/60_exceptions.md R180), and its value after
reset. -/

namespace Sys2Proof.Machine

/-- The data memory as byte cells in one canonical form: keys strictly rising, no cell equal to 0, which is what an
unlisted key reads as (R25). The word at word address `a` lies in the bytes `4a .. 4a+3`, little-endian, as in the images
of R41. DESIGN CHOICE: the spec's memory is word addressed and shows no bytes. safe; log entry 2. -/
abbrev Memory := List Host.Cell

/-- The validity map: the word addresses ever written, strictly rising (R26). DESIGN CHOICE; safe; log entry 2. -/
abbrev ValidMap := List Nat

/-- One uninitialized-read record (R188): the code index of the reading instruction and the data address. -/
structure Anomaly where
  index : Word
  address : Word
deriving DecidableEq, Repr

/-- The ends of a run that are not faults (R181 to R184). -/
inductive HaltReason where
  | endOfCode
  | beyond
  | selfLoop
  | stepLimit
deriving DecidableEq, Repr

/-- The fatal conditions with the info they carry (R185 to R187). -/
inductive FatalReason where
  | illegal (index : Word) (word : Word)
  | capacity (index : Word) (address : Word)
  | uninitStop (index : Word) (address : Word)
deriving DecidableEq, Repr

/-- The controller's status (R27, R180). -/
inductive Status where
  | running
  | halted (h : HaltReason)
  | fatal (f : FatalReason)
deriving DecidableEq, Repr

/-- The whole state of the machine (R20, R24 to R27, R5). The launch parameters stand in it so that a claim about every state
holds for every setting of them. DESIGN CHOICE; safe; log entry 3. -/
structure State where
  pc : Word
  in1 : Word
  in2 : Word
  acc : Word
  code : List Word
  mem : Memory
  valid : ValidMap
  status : Status
  steps : Nat
  anomalies : List Anomaly
  beyond : Bool
  params : LaunchParams
deriving DecidableEq, Repr

/-- Why the machine takes no step. No instruction raises a fault: every halt and every fatal condition of the spec is a
next state whose `status` says so. -/
inductive Fault where
  /-- Raised by `step` in a state whose status is not `Running`: "A state whose status is not `Running` has no step" (R100).
  DEDUCED; safe: the core takes no further step either (R180); log entry 4. -/
  | runEnded
deriving DecidableEq, Repr

/-- Why the model gives an instruction no meaning. -/
inductive Refusal where
  /-- Raised by `exec` for an instruction without a meaning in the model. safe: no claim can be proved of such an
  instruction. No arm of `exec` raises it: all 26 opcodes have their meaning. -/
  | notModelled (mnemonic : String)
deriving DecidableEq, Repr

/-- The state after reset with an empty code file, no data file and the default launch parameters: every field at the value
of R32 and R5. A code file and a data file are given at launch (R200); see `launch`.
DESIGN CHOICE: a reset with no code; safe; log entries 3 and 6. -/
def State.reset : State where
  pc := 0
  in1 := 0
  in2 := 0
  acc := 0
  code := []
  mem := []
  valid := []
  status := .running
  steps := 0
  anomalies := []
  beyond := false
  params := { stepLimit := none, addrLimit := none, uninitPolicy := .warn }

end Sys2Proof.Machine
end

