-- ==== Sys2Proof/Machine/Memory.lean ====
section
/-! DEFINITION. The named operations over the data memory and the validity map (spec/10_state.md R25, R26,
spec/20_memory.md R43, R47). -/

namespace Sys2Proof.Machine

/-! ### Bytes -/

/-- What an unlisted key reads as: "a never-written address holds 0" (R25). -/
def Memory.unlisted : Byte := 0

/-- The byte at a key. -/
def Memory.readByte : Memory → Nat → Byte
  | [], _ => Memory.unlisted
  | c :: m, k => if c.1 = k then c.2 else Memory.readByte m k

/-- The memory without the cells at a key. -/
def Memory.erase (m : Memory) (k : Nat) : Memory := m.filter fun c => c.1 != k

/-- A cell put before the first cell with a greater key. -/
def Memory.insert (c : Host.Cell) : Memory → Memory
  | [] => [c]
  | d :: m => if c.1 < d.1 then c :: d :: m else d :: Memory.insert c m

/-- The memory with a byte written at a key; writing what an unlisted key reads as leaves no cell there. -/
def Memory.writeByte (m : Memory) (k : Nat) (v : Byte) : Memory :=
  if v = Memory.unlisted then m.erase k else (m.erase k).insert (k, v)

/-- The canonical form: keys strictly rising, and no cell equal to what an unlisted key reads as. -/
abbrev Memory.wf (m : Memory) : Prop :=
  m.Pairwise (fun c d => c.1 < d.1) ∧ ∀ c ∈ m, c.2 ≠ Memory.unlisted

/-! ### Words -/

/-- The key of byte `k` of the word at word address `a`. -/
def byteKey (a : Word) (k : Nat) : Nat := 4 * a.toNat + k

/-- The word at a word address: `mem[a]` of R25, R46. -/
def Memory.readWord (m : Memory) (a : Word) : Word :=
  wordOfBytes (m.readByte (byteKey a 0)) (m.readByte (byteKey a 1)) (m.readByte (byteKey a 2)) (m.readByte (byteKey a 3))

/-- The memory after `mem[a] <- v` (R47). -/
def Memory.writeWord (m : Memory) (a v : Word) : Memory :=
  (((m.writeByte (byteKey a 0) (v.extractLsb' 0 8)).writeByte (byteKey a 1) (v.extractLsb' 8 8)).writeByte
    (byteKey a 2) (v.extractLsb' 16 8)).writeByte (byteKey a 3) (v.extractLsb' 24 8)

/-! ### Validity -/

/-- `valid[a]` (R26). -/
def ValidMap.isValid (v : ValidMap) (a : Word) : Bool := v.contains a.toNat

/-- A number added to a strictly rising list, once. -/
def ValidMap.insert (n : Nat) : ValidMap → ValidMap
  | [] => [n]
  | m :: v => if n < m then n :: m :: v else if n = m then m :: v else m :: ValidMap.insert n v

/-- `valid[a] <- true` (R47). -/
def ValidMap.mark (v : ValidMap) (a : Word) : ValidMap := v.insert a.toNat

/-- The form of a validity map: strictly rising. -/
abbrev ValidMap.wf (v : ValidMap) : Prop := v.Pairwise (· < ·)

end Sys2Proof.Machine
end

