-- ==== Sys2Proof/Machine/Operands.lean ====
section
/-! DEFINITION. Operand forms: the register file, the extensions of the immediate and the memory address calculator
(spec/00_scope.md R7, R9, spec/30_encoding.md R76, spec/40_cycle.md R105). -/

namespace Sys2Proof.Machine

/-! ### Registers -/

/-- `x[r]`: the register named `r` (R9, R20). -/
def State.reg (s : State) : Reg → Word
  | .pc => s.pc
  | .in1 => s.in1
  | .in2 => s.in2
  | .acc => s.acc

/-- `x[r] <- v`: only the register named `r` changes (R9, R112). -/
def State.setReg (s : State) (r : Reg) (v : Word) : State :=
  match r with
  | .pc => { s with pc := v }
  | .in1 => { s with in1 := v }
  | .in2 => { s with in2 := v }
  | .acc => { s with acc := v }

/-! ### Immediates -/

/-- `zext_32(i)` (R7). -/
def zext (i : Imm) : Word := i.setWidth 32

/-- `sext_32(i)` (R7). -/
def sext (i : Imm) : Word := i.signExtend 32

/-! ### Addresses -/

/-- The address of LOAD, STORE, OPLUS, OR and AND (R105). -/
def eaDirect (i : Imm) : Word := zext i

/-- The address of SUB and ADD: their immediate is signed (R105). UNVERIFIED: the spec's decision D5; unsafe; log entry 7. -/
def eaSigned (i : Imm) : Word := sext i

/-- The address of the indexed forms: the base register plus an unsigned offset, modulo 2^32 (R105). -/
def eaIndexed (base : Word) (i : Imm) : Word := base + zext i

end Sys2Proof.Machine
end

