-- ==== Sys2Proof/Machine/Ops.lean ====
section
/-! DEFINITION. The shared operations of the controller: the checked data accesses, ending a run (which is all the core has
in place of taking an exception, spec/60_exceptions.md R191), the commit of an instruction's effect and the forms the
instructions share (spec/40_cycle.md R101 to R115, spec/20_memory.md R46 to R48). -/

namespace Sys2Proof.Machine

/-! ### Ending a run -/

/-- `halt h`: the status, and the warning flag where the run went beyond the end of the code (R101, R181 to R184). -/
def halt (h : HaltReason) (s : State) : State :=
  match h with
  | .beyond => { s with status := .halted .beyond, beyond := true }
  | .endOfCode => { s with status := .halted .endOfCode }
  | .selfLoop => { s with status := .halted .selfLoop }
  | .stepLimit => { s with status := .halted .stepLimit }

/-- `raise f`: the status alone changes; nothing of the step commits (R101, R115, R190). No instruction returns from it
(R192). -/
def raiseFatal (f : FatalReason) (s : State) : State := { s with status := .fatal f }

/-! ### Data accesses -/

/-- `check capacity(a)` passes: ADDR_LIMIT is none, or `a` lies below it (R48). -/
def State.admits (s : State) (a : Word) : Bool :=
  match s.params.addrLimit with
  | none => true
  | some n => decide (a.toNat < n)

/-- `check capacity(a)`, then `MemRead(a, 4)`: the word and the anomaly to record, or the fatal condition (R46, R48). -/
def dataRead (a : Word) (s : State) : Except FatalReason (Word × Option Anomaly) :=
  if s.admits a then
    if s.valid.isValid a then .ok (s.mem.readWord a, none)
    else
      match s.params.uninitPolicy with
      | .warn => .ok (s.mem.readWord a, some { index := s.pc, address := a })
      | .suppress => .ok (s.mem.readWord a, none)
      | .stop => .error (.uninitStop s.pc a)
  else .error (.capacity s.pc a)

/-- `MemWrite(a, 4, v)` (R47). -/
def memWrite (a v : Word) (s : State) : State :=
  { s with mem := s.mem.writeWord a v, valid := s.valid.mark a }

/-! ### Commit -/

/-- What the Execute stage hands to Commit (R101): at most one register write, one data word write, a branch target and an
anomaly. -/
structure Effect where
  regWrite : Option (Reg × Word) := none
  memWrite : Option (Word × Word) := none
  target : Option Word := none
  anomaly : Option Anomaly := none
deriving DecidableEq, Repr

/-- The next-PC of the instruction at index `p`: `p + 1`, or the branch target (R108, R109); a value written to PC takes
precedence (R110). -/
def nextPc (p : Word) (e : Effect) : Word :=
  match e.regWrite with
  | some (.pc, v) => v
  | some (.in1, _) => e.target.getD (p + 1)
  | some (.in2, _) => e.target.getD (p + 1)
  | some (.acc, _) => e.target.getD (p + 1)
  | none => e.target.getD (p + 1)

/-- The data write of a commit (R101). -/
def applyMemWrite (w : Option (Word × Word)) (s : State) : State :=
  match w with
  | some (a, v) => memWrite a v s
  | none => s

/-- The register write of a commit (R101). -/
def applyRegWrite (w : Option (Reg × Word)) (s : State) : State :=
  match w with
  | some (r, v) => s.setReg r v
  | none => s

/-- Stages 4 and 5 of the step: the writes, the anomaly, the step count, the next-PC and the self-loop check
(R101, R108 to R113). -/
def commit (e : Effect) (s : State) : State :=
  let written := applyRegWrite e.regWrite (applyMemWrite e.memWrite s)
  let counted :=
    { written with
      anomalies := s.anomalies ++ e.anomaly.toList
      steps := s.steps + 1
      pc := nextPc s.pc e }
  if nextPc s.pc e = s.pc then halt .selfLoop counted else counted

/-! ### Forms that instructions share -/

/-- An instruction that writes a register from operands it has (R101). -/
def writeReg (d : Reg) (v : Word) (s : State) : Host.Outcome State Fault Refusal :=
  .next (commit { regWrite := some (d, v) } s)

/-- An instruction that reads the data word at `a` and writes a register with `f` of it; a failed access commits nothing
(R101, R115). -/
def readToReg (d : Reg) (a : Word) (f : Word → Word) (s : State) : Host.Outcome State Fault Refusal :=
  match dataRead a s with
  | .ok (v, anomaly) => .next (commit { regWrite := some (d, f v), anomaly := anomaly } s)
  | .error e => .next (raiseFatal e s)

/-- An instruction that stores ACC at `a`; a failed access commits nothing (R101, R115). -/
def storeAcc (a : Word) (s : State) : Host.Outcome State Fault Refusal :=
  if s.admits a then .next (commit { memWrite := some (a, s.acc) } s)
  else .next (raiseFatal (.capacity s.pc a) s)

/-- A jump by the signed offset `i` when the comparator says so (R107, R109, R160). -/
def jumpIf (c : Cond) (i : Imm) (s : State) : Host.Outcome State Fault Refusal :=
  .next (commit { target := if taken c s.acc then some (s.pc + sext i) else none } s)

/-! ### Fetch -/

/-- What the Fetch stage gives: the word to decode, or the end of the run (R102, R103). -/
inductive Fetched where
  | word (w : Word)
  | ended (h : HaltReason)
deriving DecidableEq, Repr

/-- Whether the step budget is spent: STEP_LIMIT is some L and `steps >= L` (R103). -/
def State.budgetSpent (s : State) : Bool :=
  match s.params.stepLimit with
  | none => false
  | some l => decide (l ≤ s.steps)

/-- The Fetch stage: end of code first, then the step budget, then the word at PC (R101 to R103, R189).
DEDUCED: with CODE_LEN = 2^32 - 1 a fetch at PC = 0xFFFFFFFF ends with End, as R102 and R181 say, where a corner note of R162
(`44_jump.md`) says Beyond for every CODE_LEN < 2^32; unsafe; log entry 15. -/
def fetch (s : State) : Fetched :=
  match s.code[s.pc.toNat]? with
  | none => if s.code.length < s.pc.toNat then .ended .beyond else .ended .endOfCode
  | some w => if s.budgetSpent then .ended .stepLimit else .word w

/-! ### Placing a word where the next fetch reads -/

/-- A code memory with the word `w` at index `p`, lengthened with zero words where it is too short. -/
def placeWord (code : List Word) (p : Nat) (w : Word) : List Word :=
  (code ++ List.replicate (p + 1 - code.length) 0).set p w

/-- A state that fetches the word `w` next: `w` stands at PC, the run is on, and a spent step budget is lifted.
DESIGN CHOICE; safe; log entry 6. -/
def State.fetching (s : State) (w : Word) : State :=
  { s with
    code := placeWord s.code s.pc.toNat w
    status := .running
    params := if s.budgetSpent then { s.params with stepLimit := none } else s.params }

end Sys2Proof.Machine
end

