-- ==== Sys2Proof/Machine/Compute.lean ====
section
/-! DEFINITION. The Compute family (spec/43_compute.md R140 to R150): D is the first ALU input and the destination. -/

namespace Sys2Proof.Machine

/-! ### Immediate forms -/

/-- SUBI (R141). -/
def execSubi (d : Reg) (i : Imm) (s : State) : Host.Outcome State Fault Refusal :=
  writeReg d (alu .sub (s.reg d) (sext i)) s

/-- ADDI (R142). -/
def execAddi (d : Reg) (i : Imm) (s : State) : Host.Outcome State Fault Refusal :=
  writeReg d (alu .add (s.reg d) (sext i)) s

/-- OPLUSI (R143). -/
def execOplusi (d : Reg) (i : Imm) (s : State) : Host.Outcome State Fault Refusal :=
  writeReg d (alu .xor (s.reg d) (zext i)) s

/-- ORI (R144). -/
def execOri (d : Reg) (i : Imm) (s : State) : Host.Outcome State Fault Refusal :=
  writeReg d (alu .or (s.reg d) (zext i)) s

/-- ANDI (R145). -/
def execAndi (d : Reg) (i : Imm) (s : State) : Host.Outcome State Fault Refusal :=
  writeReg d (alu .and (s.reg d) (zext i)) s

/-! ### Memory forms -/

/-- SUB (R146): the address is the sign-extended immediate. -/
def execSub (d : Reg) (i : Imm) (s : State) : Host.Outcome State Fault Refusal :=
  readToReg d (eaSigned i) (alu .sub (s.reg d)) s

/-- ADD (R147): the address is the sign-extended immediate. -/
def execAdd (d : Reg) (i : Imm) (s : State) : Host.Outcome State Fault Refusal :=
  readToReg d (eaSigned i) (alu .add (s.reg d)) s

/-- OPLUS (R148). -/
def execOplus (d : Reg) (i : Imm) (s : State) : Host.Outcome State Fault Refusal :=
  readToReg d (eaDirect i) (alu .xor (s.reg d)) s

/-- OR (R149). -/
def execOr (d : Reg) (i : Imm) (s : State) : Host.Outcome State Fault Refusal :=
  readToReg d (eaDirect i) (alu .or (s.reg d)) s

/-- AND (R150). -/
def execAnd (d : Reg) (i : Imm) (s : State) : Host.Outcome State Fault Refusal :=
  readToReg d (eaDirect i) (alu .and (s.reg d)) s

end Sys2Proof.Machine
end

