-- ==== Sys2Proof/Machine/Jump.lean ====
section
/-! DEFINITION. The Jump family (spec/44_jump.md R160 to R168). -/

namespace Sys2Proof.Machine

/-- NOP (R161): next-PC = p + 1 and nothing else. -/
def execNop (s : State) : Host.Outcome State Fault Refusal :=
  .next (commit { } s)

/-- JUMP (R162). -/
def execJump (i : Imm) (s : State) : Host.Outcome State Fault Refusal :=
  jumpIf .always i s

/-- JUMPGT (R163). -/
def execJumpgt (i : Imm) (s : State) : Host.Outcome State Fault Refusal :=
  jumpIf .gt i s

/-- JUMPEQ (R164). -/
def execJumpeq (i : Imm) (s : State) : Host.Outcome State Fault Refusal :=
  jumpIf .eq i s

/-- JUMPGE (R165). -/
def execJumpge (i : Imm) (s : State) : Host.Outcome State Fault Refusal :=
  jumpIf .ge i s

/-- JUMPLT (R166). -/
def execJumplt (i : Imm) (s : State) : Host.Outcome State Fault Refusal :=
  jumpIf .lt i s

/-- JUMPNE (R167). -/
def execJumpne (i : Imm) (s : State) : Host.Outcome State Fault Refusal :=
  jumpIf .ne i s

/-- JUMPLE (R168). -/
def execJumple (i : Imm) (s : State) : Host.Outcome State Fault Refusal :=
  jumpIf .le i s

end Sys2Proof.Machine
end

