-- ==== Sys2Proof/Machine/Load.lean ====
section
/-! DEFINITION. The Load family (spec/41_load.md R120 to R123). -/

namespace Sys2Proof.Machine

/-- LOAD (R120). -/
def execLoad (d : Reg) (i : Imm) (s : State) : Host.Outcome State Fault Refusal :=
  readToReg d (eaDirect i) (fun v => v) s

/-- LOADIN1 (R121): IN1 is read at the start of the step (R114). -/
def execLoadin1 (d : Reg) (i : Imm) (s : State) : Host.Outcome State Fault Refusal :=
  readToReg d (eaIndexed s.in1 i) (fun v => v) s

/-- LOADIN2 (R122): IN2 is read at the start of the step (R114). -/
def execLoadin2 (d : Reg) (i : Imm) (s : State) : Host.Outcome State Fault Refusal :=
  readToReg d (eaIndexed s.in2 i) (fun v => v) s

/-- LOADI (R123). -/
def execLoadi (d : Reg) (i : Imm) (s : State) : Host.Outcome State Fault Refusal :=
  writeReg d (zext i) s

end Sys2Proof.Machine
end

