-- ==== Sys2Proof/Machine/Store.lean ====
section
/-! DEFINITION. The Store family and MOVE (spec/42_store_move.md R130 to R133). -/

namespace Sys2Proof.Machine

/-- STORE (R130). -/
def execStore (i : Imm) (s : State) : Host.Outcome State Fault Refusal :=
  storeAcc (eaDirect i) s

/-- STOREIN1 (R131). -/
def execStorein1 (i : Imm) (s : State) : Host.Outcome State Fault Refusal :=
  storeAcc (eaIndexed s.in1 i) s

/-- STOREIN2 (R132). -/
def execStorein2 (i : Imm) (s : State) : Host.Outcome State Fault Refusal :=
  storeAcc (eaIndexed s.in2 i) s

/-- MOVE (R133): the source is read at the start of the step; PC as a source is the instruction's own index. -/
def execMove (src d : Reg) (s : State) : Host.Outcome State Fault Refusal :=
  writeReg d (s.reg src) s

end Sys2Proof.Machine
end

