-- ==== Sys2Proof/Machine/Dispatch.lean ====
section
/-! DEFINITION. The Execute and Commit stages and the halt check of each instruction (spec/40_cycle.md R101): one arm per
constructor of Instr. `exec` does not look at `status`; `step` does. DESIGN CHOICE; safe; log entry 5. -/

namespace Sys2Proof.Machine

def exec (ins : Instr) (s : State) : Host.Outcome State Fault Refusal :=
  match ins with
  | .load d i => Sys2Proof.Machine.execLoad d i s
  | .loadin1 d i => Sys2Proof.Machine.execLoadin1 d i s
  | .loadin2 d i => Sys2Proof.Machine.execLoadin2 d i s
  | .loadi d i => Sys2Proof.Machine.execLoadi d i s
  | .store i => Sys2Proof.Machine.execStore i s
  | .storein1 i => Sys2Proof.Machine.execStorein1 i s
  | .storein2 i => Sys2Proof.Machine.execStorein2 i s
  | .move src d => Sys2Proof.Machine.execMove src d s
  | .subi d i => Sys2Proof.Machine.execSubi d i s
  | .addi d i => Sys2Proof.Machine.execAddi d i s
  | .oplusi d i => Sys2Proof.Machine.execOplusi d i s
  | .ori d i => Sys2Proof.Machine.execOri d i s
  | .andi d i => Sys2Proof.Machine.execAndi d i s
  | .sub d i => Sys2Proof.Machine.execSub d i s
  | .add d i => Sys2Proof.Machine.execAdd d i s
  | .oplus d i => Sys2Proof.Machine.execOplus d i s
  | .or d i => Sys2Proof.Machine.execOr d i s
  | .and d i => Sys2Proof.Machine.execAnd d i s
  | .nop => Sys2Proof.Machine.execNop s
  | .jump i => Sys2Proof.Machine.execJump i s
  | .jumpgt i => Sys2Proof.Machine.execJumpgt i s
  | .jumpeq i => Sys2Proof.Machine.execJumpeq i s
  | .jumpge i => Sys2Proof.Machine.execJumpge i s
  | .jumplt i => Sys2Proof.Machine.execJumplt i s
  | .jumpne i => Sys2Proof.Machine.execJumpne i s
  | .jumple i => Sys2Proof.Machine.execJumple i s

end Sys2Proof.Machine
end

