-- ==== Sys2Proof/Machine/Step.lean ====
section
/-! DEFINITION. One step of the controller (spec/40_cycle.md R100, R101, spec/60_exceptions.md R189), and placing an
instruction where the next step fetches. -/

namespace Sys2Proof.Machine

/-- One step (R101): fetch, step budget, decode, then the instruction's Execute, Commit and halt check (`exec`). A state
whose status is not Running has no step (R100). -/
def step (s : State) : Host.Outcome State Fault Refusal :=
  match s.status with
  | .running =>
    match fetch s with
    | .ended h => .next (halt h s)
    | .word w =>
      match decode w with
      | .illegal => .next (raiseFatal (.illegal s.pc w) s)
      | .legal i => exec i s
  | .halted _ => .fault .runEnded
  | .fatal _ => .fault .runEnded

/-- The state with a table word placed where the next step fetches. DESIGN CHOICE; safe; log entry 6. -/
def State.withFetchWord (s : State) (nbits w : Nat) : State := s.fetching (tableWord nbits w)

end Sys2Proof.Machine
end

