-- ==== Sys2Proof/Machine/Disasm.lean ====
section
/-! DEFINITION. The disassembler and the trace (spec/30_encoding.md R88 to R91, spec/40_cycle.md R116). Text is a list of
characters. -/

namespace Sys2Proof.Machine

/-- A piece of text. DESIGN CHOICE: the bytes of a file are decoded to characters outside the model; safe; log entry 14. -/
abbrev Text := List Char

/-! ### Names -/

/-- The mnemonic of an opcode, in upper case (R81). -/
def mnemonic : Opcode → Text
  | .load => ['L', 'O', 'A', 'D']
  | .loadin1 => ['L', 'O', 'A', 'D', 'I', 'N', '1']
  | .loadin2 => ['L', 'O', 'A', 'D', 'I', 'N', '2']
  | .loadi => ['L', 'O', 'A', 'D', 'I']
  | .store => ['S', 'T', 'O', 'R', 'E']
  | .storein1 => ['S', 'T', 'O', 'R', 'E', 'I', 'N', '1']
  | .storein2 => ['S', 'T', 'O', 'R', 'E', 'I', 'N', '2']
  | .move => ['M', 'O', 'V', 'E']
  | .subi => ['S', 'U', 'B', 'I']
  | .addi => ['A', 'D', 'D', 'I']
  | .oplusi => ['O', 'P', 'L', 'U', 'S', 'I']
  | .ori => ['O', 'R', 'I']
  | .andi => ['A', 'N', 'D', 'I']
  | .sub => ['S', 'U', 'B']
  | .add => ['A', 'D', 'D']
  | .oplus => ['O', 'P', 'L', 'U', 'S']
  | .or => ['O', 'R']
  | .and => ['A', 'N', 'D']
  | .nop => ['N', 'O', 'P']
  | .jump => ['J', 'U', 'M', 'P']
  | .jumpgt => ['J', 'U', 'M', 'P', 'G', 'T']
  | .jumpeq => ['J', 'U', 'M', 'P', 'E', 'Q']
  | .jumpge => ['J', 'U', 'M', 'P', 'G', 'E']
  | .jumplt => ['J', 'U', 'M', 'P', 'L', 'T']
  | .jumpne => ['J', 'U', 'M', 'P', 'N', 'E']
  | .jumple => ['J', 'U', 'M', 'P', 'L', 'E']

/-- The name of a register (R82). -/
def regName : Reg → Text
  | .pc => ['P', 'C']
  | .in1 => ['I', 'N', '1']
  | .in2 => ['I', 'N', '2']
  | .acc => ['A', 'C', 'C']

/-! ### Numerals -/

/-- The lower-case digit of a value below 16. -/
def digitChar (n : Nat) : Char := Char.ofNat (if n < 10 then 48 + n else 87 + n)

/-- The digits of a number in a base, without leading zeros; `fuel + 1` digits at most. -/
def digits (base : Nat) : Nat → Nat → Text
  | 0, n => [digitChar (n % base)]
  | fuel + 1, n => if n < base then [digitChar n] else digits base fuel (n / base) ++ [digitChar (n % base)]

/-- The decimal numeral of a number below 10^9; an immediate is below 2^24. -/
def decimal (n : Nat) : Text := digits 10 8 n

/-- The hexadecimal numeral of a number below 16^9, after `0x` (R89). -/
def hexadecimal (n : Nat) : Text := '0' :: 'x' :: digits 16 8 n

/-- The decimal numeral of an integer, a minus sign before a negative one (R89). -/
def signedDecimal (v : Int) : Text := if v < 0 then '-' :: decimal v.natAbs else decimal v.natAbs

/-- The eight lower-case hexadecimal digits of a word (R91). -/
def hex8 (w : Word) : Text := [28, 24, 20, 16, 12, 8, 4, 0].map fun k => digitChar (w.extractLsb' k 4).toNat

/-- The opcodes whose immediate is rendered in hexadecimal (R89). -/
def logical : Opcode → Bool
  | .oplusi | .ori | .andi | .oplus | .or | .and => true
  | .load | .loadin1 | .loadin2 | .loadi | .store | .storein1 | .storein2 | .move => false
  | .subi | .addi | .sub | .add => false
  | .nop | .jump | .jumpgt | .jumpeq | .jumpge | .jumplt | .jumpne | .jumple => false

/-- The immediate in the numeral convention of the opcode (R89). -/
def renderImm (op : Opcode) (i : Imm) : Text :=
  if op.signed then signedDecimal (sext i).toInt
  else if logical op then hexadecimal i.toNat
  else decimal i.toNat

/-! ### Disassembly -/

/-- The source register an instruction carries (R66). -/
def srcOf : Instr → Option Reg
  | .move s _ => some s
  | .load _ _ | .loadin1 _ _ | .loadin2 _ _ | .loadi _ _ | .store _ | .storein1 _ | .storein2 _ => none
  | .subi _ _ | .addi _ _ | .oplusi _ _ | .ori _ _ | .andi _ _ => none
  | .sub _ _ | .add _ _ | .oplus _ _ | .or _ _ | .and _ _ => none
  | .nop | .jump _ | .jumpgt _ | .jumpeq _ | .jumpge _ | .jumplt _ | .jumpne _ | .jumple _ => none

/-- The destination register an instruction carries (R66). -/
def dstOf : Instr → Option Reg
  | .load d _ | .loadin1 d _ | .loadin2 d _ | .loadi d _ | .move _ d => some d
  | .subi d _ | .addi d _ | .oplusi d _ | .ori d _ | .andi d _ => some d
  | .sub d _ | .add d _ | .oplus d _ | .or d _ | .and d _ => some d
  | .store _ | .storein1 _ | .storein2 _ => none
  | .nop | .jump _ | .jumpgt _ | .jumpeq _ | .jumpge _ | .jumplt _ | .jumpne _ | .jumple _ => none

/-- The immediate an instruction carries (R66). -/
def immOf : Instr → Option Imm
  | .load _ i | .loadin1 _ i | .loadin2 _ i | .loadi _ i | .store i | .storein1 i | .storein2 i => some i
  | .subi _ i | .addi _ i | .oplusi _ i | .ori _ i | .andi _ i => some i
  | .sub _ i | .add _ i | .oplus _ i | .or _ i | .and _ i => some i
  | .jump i | .jumpgt i | .jumpeq i | .jumpge i | .jumplt i | .jumpne i | .jumple i => some i
  | .move _ _ | .nop => none

/-- A token with the separating space before it (R88). -/
def spaced (t : Option Text) : Text :=
  match t with
  | some t => ' ' :: t
  | none => []

/-- The rendering of an instruction: mnemonic, source, destination, immediate, one space between tokens (R88). -/
def render (ins : Instr) : Text :=
  mnemonic ins.opcode ++ spaced ((srcOf ins).map regName) ++ spaced ((dstOf ins).map regName) ++
    spaced ((immOf ins).map (renderImm ins.opcode))

/-- The disassembler: None for Illegal words, otherwise the rendering (R88). -/
def disassemble (w : Word) : Option Text :=
  match decode w with
  | .legal i => some (render i)
  | .illegal => none

/-- Spaces put before a text up to a width; a text that is wider is left whole. DEDUCED from "left-padded"; unsafe; log
entry 11. -/
def leftPad (width : Nat) (t : Text) : Text := List.replicate (width - t.length) ' ' ++ t

/-- A line of the disassembly report for the word at an index of its file, given DIS_PAD_WIDTH (R91). R91 does not say what
the report shows for an Illegal word, which has no rendering (R88). DESIGN CHOICE: such a word has no line; unsafe; log
entry 16. -/
def reportLine (padWidth : Nat) (index w : Word) : Option Text :=
  (disassemble w).map fun t => leftPad padWidth t ++ [' ', ';', ' '] ++ hex8 index ++ [' '] ++ hex8 w

/-! ### Trace -/

/-- What the controller may emit for the step from a state, if that step passes Decode: PC and the word (R116). It is
output only: no other definition reads it. DESIGN CHOICE: a function of the state before the step, present whenever the step
passes Decode; unsafe; log entry 13. -/
def traceEvent (s : State) : Option (Word × Word) :=
  match s.status with
  | .running =>
    match fetch s with
    | .ended _ => none
    | .word w =>
      match decode w with
      | .legal _ => some (s.pc, w)
      | .illegal => none
  | .halted _ => none
  | .fatal _ => none

/-- The trace of a step as text: the rendering of its word (R116). -/
def traceText (s : State) : Option Text := (traceEvent s).bind fun e => disassemble e.2

end Sys2Proof.Machine
end

