-- ==== Sys2Proof/Machine/Asm.lean ====
section
/-! DEFINITION. The assembler: lines, tokens, the grammar, literals and errors (spec/30_encoding.md R80 to R87). -/

namespace Sys2Proof.Machine

/-! ### Lexical structure -/

/-- White space inside a line. DESIGN CHOICE: space and tab; unsafe; log entry 8. -/
def isBlank (c : Char) : Bool := c == ' ' || c == '\t'

/-- The text with every `\r\n` made `\n`; a `\r` that is left is bare (R80). -/
def joinCrLf : Text → Text
  | [] => []
  | c :: cs => if c = '\r' ∧ cs.head? = some '\n' then joinCrLf cs else c :: joinCrLf cs

/-- The lines of a text, without their line ends; the last line needs none. DEDUCED; unsafe; log entry 10. -/
def splitLines : Text → List Text
  | [] => [[]]
  | c :: cs =>
    if c = '\n' then [] :: splitLines cs
    else
      match splitLines cs with
      | [] => [[c]]
      | l :: ls => (c :: l) :: ls

/-- A line up to its comment: `;` starts a comment to the end of the line (R80). -/
def uncomment (line : Text) : Text := line.takeWhile fun c => c != ';'

/-- The token a text starts with (empty where it starts with white space or is empty) and the tokens after it. -/
def firstToken : Text → Text × List Text
  | [] => ([], [])
  | c :: cs =>
    let (t, ts) := firstToken cs
    if isBlank c then ([], if t = [] then ts else t :: ts) else (c :: t, ts)

/-- The white-space-separated tokens of a text (R80). -/
def tokens (cs : Text) : List Text :=
  let (t, ts) := firstToken cs
  if t = [] then ts else t :: ts

/-! ### Names and literals -/

/-- All opcodes, in the order of R66. -/
def allOpcodes : List Opcode :=
  [.load, .loadin1, .loadin2, .loadi, .store, .storein1, .storein2, .move,
   .subi, .addi, .oplusi, .ori, .andi, .sub, .add, .oplus, .or, .and,
   .nop, .jump, .jumpgt, .jumpeq, .jumpge, .jumplt, .jumpne, .jumple]

/-- The opcode with a mnemonic; only the spellings of R81 are known (R81, R87). -/
def opcodeNamed (t : Text) : Option Opcode := allOpcodes.find? fun op => mnemonic op == t

/-- The register with a name (R82). -/
def regNamed (t : Text) : Option Reg := [Reg.pc, .in1, .in2, .acc].find? fun r => regName r == t

/-- The value of a digit; hexadecimal digits in either case (R83). -/
def digitValue (c : Char) : Option Nat :=
  if '0' ≤ c ∧ c ≤ '9' then some (c.toNat - 48)
  else if 'a' ≤ c ∧ c ≤ 'f' then some (c.toNat - 87)
  else if 'A' ≤ c ∧ c ≤ 'F' then some (c.toNat - 55)
  else none

/-- The number that digits of a base write after those already read. -/
def readDigits (base : Nat) : Text → Nat → Option Nat
  | [], n => some n
  | c :: cs, n =>
    match digitValue c with
    | some v => if v < base then readDigits base cs (n * base + v) else none
    | none => none

/-- The number of a numeral: decimal digits, or `0x` and hexadecimal digits, at least one digit (R83). -/
def readNumeral (t : Text) : Option Nat :=
  match t with
  | [] => none
  | c :: cs =>
    if c = '0' then
      match cs with
      | [] => some 0
      | x :: ds =>
        if x = 'x' then (if ds = [] then none else readDigits 16 ds 0)
        else readDigits 10 (x :: ds) 0
    else readDigits 10 (c :: cs) 0

/-- A literal: a numeral with an optional minus sign; which opcodes accept the sign is checked later (R83). -/
def readLiteral (t : Text) : Option Literal :=
  match t with
  | [] => none
  | c :: cs =>
    if c = '-' then (readNumeral cs).map fun n => { negative := true, magnitude := n }
    else (readNumeral (c :: cs)).map fun n => { negative := false, magnitude := n }

/-- The field of an accepted literal: its value modulo 2^24 (R84). -/
def literalField (l : Literal) : Imm := BitVec.ofInt 24 l.value

/-! ### Errors -/

/-- The parse errors of R80 and R85. A missing separator shows as the error of the token it makes. DEDUCED; unsafe;
log entry 9. -/
inductive AsmErrorKind where
  | unknownMnemonic
  | invalidRegister
  | invalidImmediate
  | signNotAccepted
  | outOfRange
  | missingOperand
  | trailingGarbage
  | unexpectedEmptyLine
  | bareCarriageReturn
deriving DecidableEq, Repr

/-- What is wrong in a line: the kind and the offending token (empty where no token offends). -/
structure LineError where
  kind : AsmErrorKind
  token : Text
deriving DecidableEq, Repr

/-- A parse error with its 1-based line number (R85). -/
structure AsmError where
  line : Nat
  error : LineError
deriving DecidableEq, Repr

/-! ### The grammar -/

/-- A register operand, where the opcode carries one, and the tokens after it (R81, R82). -/
def takeReg (needed : Bool) (ts : List Text) : Except LineError (Option Reg × List Text) :=
  if needed then
    match ts with
    | [] => .error { kind := .missingOperand, token := [] }
    | t :: ts =>
      match regNamed t with
      | some r => .ok (some r, ts)
      | none => .error { kind := .invalidRegister, token := t }
  else .ok (none, ts)

/-- An immediate operand, where the opcode carries one, and the tokens after it (R81, R83). -/
def takeImm (op : Opcode) (ts : List Text) : Except LineError (Option Literal × List Text) :=
  if op.hasImm then
    match ts with
    | [] => .error { kind := .missingOperand, token := [] }
    | t :: ts =>
      match readLiteral t with
      | none => .error { kind := .invalidImmediate, token := t }
      | some l =>
        match l.fault op with
        | none => .ok (some l, ts)
        | some .signNotAccepted => .error { kind := .signNotAccepted, token := t }
        | some .outOfRange => .error { kind := .outOfRange, token := t }
        | some .missingOperand => .error { kind := .missingOperand, token := t }
        | some .extraOperand => .error { kind := .trailingGarbage, token := t }
  else .ok (none, ts)

/-- The written instruction that the tokens of a line make: mnemonic, source, destination, immediate, nothing after
them (R81). -/
def readSource (name : Text) (operands : List Text) : Except LineError SourceInstr :=
  match opcodeNamed name with
  | none => .error { kind := .unknownMnemonic, token := name }
  | some op =>
    match takeReg op.hasSrc operands with
    | .error e => .error e
    | .ok (src, ts) =>
      match takeReg op.hasDst ts with
      | .error e => .error e
      | .ok (dst, ts) =>
        match takeImm op ts with
        | .error e => .error e
        | .ok (imm, []) => .ok { opcode := op, src := src, dst := dst, imm := imm }
        | .ok (_, t :: _) => .error { kind := .trailingGarbage, token := t }

/-- The instruction a well-formed written instruction stands for (R81, R84). -/
def instrOfSource (x : SourceInstr) : Instr :=
  x.opcode.instr (x.src.getD .pc) (x.dst.getD .pc) ((x.imm.map literalField).getD 0)

/-- One line: an instruction, nothing (an empty line, or a line that is only a comment), or an error (R80, R81). -/
def readLine (line : Text) : Except LineError (Option Instr) :=
  if line.contains '\r' then .error { kind := .bareCarriageReturn, token := ['\r'] }
  else
    match tokens (uncomment line) with
    | [] =>
      if line = [] ∨ line.contains ';' then .ok none
      else .error { kind := .unexpectedEmptyLine, token := [] }
    | name :: operands =>
      match readSource name operands with
      | .ok x => .ok (some (instrOfSource x))
      | .error e => .error e

/-- The instructions of the lines from a line number on; the first error ends the assembly with no output (R85). -/
def readLines : List Text → Nat → Except AsmError (List Instr)
  | [], _ => .ok []
  | l :: ls, n =>
    match readLine l with
    | .error e => .error { line := n, error := e }
    | .ok x =>
      match readLines ls (n + 1) with
      | .error e => .error e
      | .ok is => .ok (x.toList ++ is)

/-- The assembler: a text to its instruction words (R80 to R86). -/
def assemble (text : Text) : Except AsmError (List Word) :=
  match readLines (splitLines (joinCrLf text)) 1 with
  | .ok is => .ok (is.map encode)
  | .error e => .error e

/-- The bytes the assembler writes to its output: 4 little-endian bytes per instruction (R86). -/
def assembleImage (text : Text) : Except AsmError (List Byte) :=
  match assemble text with
  | .ok ws => .ok (imageOfWords ws)
  | .error e => .error e

end Sys2Proof.Machine
end

