-- ==== Sys2Proof/Machine/Launch.lean ====
section
/-! DEFINITION. Reset and launch: how the host gives the core a program, data and the launch parameters
(spec/70_reset_and_hazards.md R200 to R204), and what it reads at the end (spec/60_exceptions.md R180, R205). -/

namespace Sys2Proof.Machine

/-- Why no run starts. -/
inductive LaunchError where
  /-- The code image ends in a truncated word (R203). -/
  | truncatedCode
  /-- The data image ends in a truncated word (R203). -/
  | truncatedData
  /-- More than 2^32 code words (R5, R24). -/
  | codeTooLong
  /-- More than 2^32 data words: the data space has no place for them (R5, R40). DEDUCED; safe; log entry 12. -/
  | dataTooLong
deriving DecidableEq, Repr

/-- The data load: words in order from a word address on, each marked valid (R32, R200). -/
def loadData : List Word → Nat → State → State
  | [], _, s => s
  | w :: ws, a, s => loadData ws (a + 1) (memWrite (BitVec.ofNat 32 a) w s)

/-- Reset from a code file, a data file (empty when none is given) and the launch parameters (R200, R32). -/
def launch (code data : List Word) (params : LaunchParams) : Except LaunchError State :=
  if 2 ^ 32 < code.length then .error .codeTooLong
  else if 2 ^ 32 < data.length then .error .dataTooLong
  else .ok (loadData data 0 { State.reset with code := code, params := params })

/-- Reset from the two images as the files hold them, little-endian words (R41, R200, R203). -/
def launchImages (code data : List Byte) (params : LaunchParams) : Except LaunchError State :=
  match wordsOfImage code, wordsOfImage data with
  | none, _ => .error .truncatedCode
  | some _, none => .error .truncatedData
  | some cs, some ds => launch cs ds params

/-- The code of a status on the status output (R180). -/
def Status.code : Status → Nat
  | .running => 0
  | .halted .endOfCode => 1
  | .halted .beyond => 2
  | .halted .selfLoop => 3
  | .halted .stepLimit => 4
  | .fatal (.illegal _ _) => 5
  | .fatal (.capacity _ _) => 6
  | .fatal (.uninitStop _ _) => 7

/-- How a run ended (R205). -/
inductive RunEnd where
  | normally
  | unfinished
  | faulted
deriving DecidableEq, Repr

/-- How the run ended, or none while it is on (R205). -/
def Status.runEnd : Status → Option RunEnd
  | .running => none
  | .halted .endOfCode => some .normally
  | .halted .beyond => some .normally
  | .halted .selfLoop => some .normally
  | .halted .stepLimit => some .unfinished
  | .fatal _ => some .faulted

end Sys2Proof.Machine
end

