-- ==== Sys2Proof/Safety.lean ====
section
/-! DEFINITION. The terms that claims about the machine use: which data address an instruction reaches, when an access goes
through, what a committed step leaves, the invariants, and runs. -/

namespace Sys2Proof.Machine

/-! ### Data addresses -/

/-- The data address an instruction reads, if it reads one: the rows of R105 for LOAD, LOADIN1, LOADIN2, SUB, ADD, OPLUS, OR
and AND. -/
def readAddress (ins : Instr) (s : State) : Option Word :=
  match ins with
  | .load _ i => some (eaDirect i)
  | .loadin1 _ i => some (eaIndexed s.in1 i)
  | .loadin2 _ i => some (eaIndexed s.in2 i)
  | .sub _ i => some (eaSigned i)
  | .add _ i => some (eaSigned i)
  | .oplus _ i => some (eaDirect i)
  | .or _ i => some (eaDirect i)
  | .and _ i => some (eaDirect i)
  | .loadi _ _ | .store _ | .storein1 _ | .storein2 _ | .move _ _ => none
  | .subi _ _ | .addi _ _ | .oplusi _ _ | .ori _ _ | .andi _ _ => none
  | .nop | .jump _ | .jumpgt _ | .jumpeq _ | .jumpge _ | .jumplt _ | .jumpne _ | .jumple _ => none

/-- The data address an instruction stores to, if it stores: the rows of R105 for STORE, STOREIN1 and STOREIN2. -/
def storeAddress (ins : Instr) (s : State) : Option Word :=
  match ins with
  | .store i => some (eaDirect i)
  | .storein1 i => some (eaIndexed s.in1 i)
  | .storein2 i => some (eaIndexed s.in2 i)
  | .load _ _ | .loadin1 _ _ | .loadin2 _ _ | .loadi _ _ | .move _ _ => none
  | .subi _ _ | .addi _ _ | .oplusi _ _ | .ori _ _ | .andi _ _ => none
  | .sub _ _ | .add _ _ | .oplus _ _ | .or _ _ | .and _ _ => none
  | .nop | .jump _ | .jumpgt _ | .jumpeq _ | .jumpge _ | .jumplt _ | .jumpne _ | .jumple _ => none

/-- An address lies within the configured bound (R48). -/
def Admitted (s : State) (a : Word) : Prop := ∀ n, s.params.addrLimit = some n → a.toNat < n

/-- A read of an address goes through: it is admitted, and its word was written or the policy is not `stop` (R46, R48). -/
def Readable (s : State) (a : Word) : Prop :=
  Admitted s a ∧ (s.valid.isValid a = true ∨ s.params.uninitPolicy ≠ .stop)

/-- The records a read that goes through appends (R46, R188). -/
def readRecords (s : State) (a : Word) : List Anomaly :=
  if s.valid.isValid a = false ∧ s.params.uninitPolicy = .warn then [{ index := s.pc, address := a }] else []

/-! ### What a committed step leaves -/

/-- The controller's side of a committed step with a next-PC: PC, the step count, the self-loop check, and all that no
instruction writes (R108 to R113, R204). -/
structure CommittedTo (s t : State) (npc : Word) : Prop where
  pc : t.pc = npc
  steps : t.steps = s.steps + 1
  status : t.status = if npc = s.pc then .halted .selfLoop else s.status
  beyond : t.beyond = s.beyond
  code : t.code = s.code
  params : t.params = s.params

/-- No byte of data memory and no validity flag differs. -/
structure SameData (s t : State) : Prop where
  bytes : ∀ k, t.mem.readByte k = s.mem.readByte k
  valid : ∀ a, t.valid.isValid a = s.valid.isValid a

/-- IN1, IN2 and ACC are unchanged. -/
def SameRegisters (s t : State) : Prop := ∀ r, r ≠ .pc → t.reg r = s.reg r

/-- A committed step that writes `v` to register `d` and appends records: a value written to PC is the next-PC (R110),
a write to another register changes that register only (R112). -/
structure RegisterWritten (s t : State) (d : Reg) (v : Word) (records : List Anomaly) : Prop where
  committed : CommittedTo s t (if d = .pc then v else s.pc + 1)
  written : d ≠ .pc → t.reg d = v
  others : ∀ r, r ≠ .pc → r ≠ d → t.reg r = s.reg r
  data : SameData s t
  anomalies : t.anomalies = s.anomalies ++ records

/-- A committed step that stores the word `v` at word address `a` (R47): byte `k` of the memory is one of the four stored
bytes exactly when `k / 4` is `a`. -/
structure WordStored (s t : State) (a v : Word) : Prop where
  committed : CommittedTo s t (s.pc + 1)
  registers : SameRegisters s t
  stored : t.mem.readWord a = v
  marked : t.valid.isValid a = true
  bytes : ∀ k, k / 4 ≠ a.toNat → t.mem.readByte k = s.mem.readByte k
  valid : ∀ b, b ≠ a → t.valid.isValid b = s.valid.isValid b
  anomalies : t.anomalies = s.anomalies

/-- A committed step that only moves PC (R160). -/
structure OnlyPcMoved (s t : State) (npc : Word) : Prop where
  committed : CommittedTo s t npc
  registers : SameRegisters s t
  data : SameData s t
  anomalies : t.anomalies = s.anomalies

/-! ### Invariants -/

/-- The data side of a state: both maps are canonical, no address lies outside the data space, and no byte is held for a
word that was never written (R25, R26, R40). -/
structure DataInv (s : State) : Prop where
  memory : s.mem.wf
  validity : s.valid.wf
  inSpace : ∀ n ∈ s.valid, n < 2 ^ 32
  written : ∀ c ∈ s.mem, c.1 / 4 ∈ s.valid

/-- What a terminal status says of the state it left (R181 to R187). -/
def statusMeans (s : State) : Prop :=
  match s.status with
  | .running => True
  | .halted .endOfCode => s.pc.toNat = s.code.length
  | .halted .beyond => s.code.length < s.pc.toNat
  | .halted .selfLoop => s.pc.toNat < s.code.length ∧ 0 < s.steps
  | .halted .stepLimit => s.pc.toNat < s.code.length ∧ ∃ l, s.params.stepLimit = some l ∧ s.steps = l
  | .fatal (.illegal p w) => p = s.pc ∧ s.code[p.toNat]? = some w ∧ decode w = .illegal
  | .fatal (.capacity p a) => p = s.pc ∧ ¬ Admitted s a
  | .fatal (.uninitStop p a) =>
    p = s.pc ∧ Admitted s a ∧ s.valid.isValid a = false ∧ s.params.uninitPolicy = .stop

/-- The controller's side of a state. -/
structure ControlInv (s : State) : Prop where
  codeLength : s.code.length ≤ 2 ^ 32
  budget : ∀ l, s.params.stepLimit = some l → s.steps ≤ l
  beyond : s.beyond = true ↔ s.status = .halted .beyond
  status : statusMeans s
  records : ∀ x ∈ s.anomalies, x.index.toNat < s.code.length ∧ Admitted s x.address
  policy : s.anomalies ≠ [] → s.params.uninitPolicy = .warn
  recordCount : s.anomalies.length ≤ s.steps

/-- The invariant of the machine. -/
structure MachineInv (s : State) : Prop where
  data : DataInv s
  control : ControlInv s

/-! ### Runs -/

/-- The state after `n` steps, or the state that takes no further step if the run ends earlier. -/
def runFor : Nat → State → State
  | 0, s => s
  | n + 1, s =>
    match step s with
    | .next t => runFor n t
    | .fault _ => s
    | .refused _ => s

/-- A run is safe in a state when it has not ended faulted (R205). -/
def NotFaulted (s : State) : Prop := s.status.runEnd ≠ some .faulted

end Sys2Proof.Machine
end

