-- ==== Sys2Proof/Certificates/Slice0/Obligations.lean ====
section
/-! DEFINITION. The statements about the core for the provers, in the order of the spec's files. Their vocabulary
(`RegisterWritten`, `WordStored`, `OnlyPcMoved`, `Readable`, `MachineInv`, ...) is in Sys2Proof/Safety.lean. -/

open Sys2Proof Sys2Proof.Machine

/-! ### Codec -/

/-- R21: the register codes, that both register fields of a word are read through them, and that no value of a
register field makes a legal word Illegal. The positions of the two fields are the spec's decision D3 (log entry 1). -/
def Obligations.RegisterCodesNameRegisters : Prop :=
  Reg.ofCode 0 = .pc ∧ Reg.ofCode 1 = .in1 ∧ Reg.ofCode 2 = .in2 ∧ Reg.ofCode 3 = .acc ∧
  (∀ c, (Reg.ofCode c).code = c) ∧
  (∀ (w : Word) (i : Instr) (c : BitVec 2), decode w = .legal i →
    (∃ i', decode (w &&& ~~~0x03000000 ||| field 24 c) = .legal i') ∧
    (srcOf i ≠ none → ∃ i', decode (w &&& ~~~0x0C000000 ||| field 26 c) = .legal i')) ∧
  (∀ w i, decode w = .legal i →
    (∀ d, dstOf i = some d → d = Reg.ofCode (w.extractLsb' 24 2)) ∧
    (∀ r, srcOf i = some r → r = Reg.ofCode (w.extractLsb' 26 2)))

/-- R71, row by row of the opcode map: every word of a row's match under its mask decodes to the row's instruction
with the fields of R62 to R65, and a word of no row is Illegal. The field positions and codes are the spec's
decision D3 (log entry 1). -/
def Obligations.OpcodeMapDecodes : Prop :=
  ∀ w : Word,
    let s := Reg.ofCode (w.extractLsb' 26 2)
    let d := Reg.ofCode (w.extractLsb' 24 2)
    let i : Imm := w.extractLsb' 0 24
    let rows : List (Word × Word × Instr) :=
      [(0xF0000000, 0x40000000, .load d i), (0xF0000000, 0x50000000, .loadin1 d i),
       (0xF0000000, 0x60000000, .loadin2 d i), (0xF0000000, 0x70000000, .loadi d i),
       (0xF0000000, 0x80000000, .store i), (0xF0000000, 0x90000000, .storein1 i),
       (0xF0000000, 0xA0000000, .storein2 i), (0xF0000000, 0xB0000000, .move s d),
       (0xFC000000, 0x08000000, .subi d i), (0xFC000000, 0x0C000000, .addi d i),
       (0xFC000000, 0x10000000, .oplusi d i), (0xFC000000, 0x14000000, .ori d i),
       (0xFC000000, 0x18000000, .andi d i), (0xFC000000, 0x28000000, .sub d i),
       (0xFC000000, 0x2C000000, .add d i), (0xFC000000, 0x30000000, .oplus d i),
       (0xFC000000, 0x34000000, .or d i), (0xFC000000, 0x38000000, .and d i),
       (0xF8000000, 0xC0000000, .nop), (0xF8000000, 0xC8000000, .jumpgt i),
       (0xF8000000, 0xD0000000, .jumpeq i), (0xF8000000, 0xD8000000, .jumpge i),
       (0xF8000000, 0xE0000000, .jumplt i), (0xF8000000, 0xE8000000, .jumpne i),
       (0xF8000000, 0xF0000000, .jumple i), (0xF8000000, 0xF8000000, .jump i)]
    (∀ r ∈ rows, w &&& r.1 = r.2.1 → decode w = .legal r.2.2) ∧
    ((∀ r ∈ rows, w &&& r.1 ≠ r.2.1) → decode w = .illegal)

/-- R72: the Illegal words are those of the six reserved Compute patterns, 6 * 2^26 of them, and executing one is
fatal. The field positions and codes are the spec's decision D3 (log entry 1). -/
def Obligations.IllegalWordsExactly : Prop :=
  (∀ w : Word, decode w = .illegal ↔
    w.extractLsb' 30 2 = 0 ∧
      w.extractLsb' 26 4 ∈ [0b0000#4, 0b0001#4, 0b0111#4, 0b1000#4, 0b1001#4, 0b1111#4]) ∧
  decode 0x00000000 = .illegal ∧
  ((Finset.range (2 ^ 32)).filter fun n => decode (BitVec.ofNat 32 n) = .illegal).card = 6 * 2 ^ 26 ∧
  (∀ s w, s.status = .running → s.code[s.pc.toNat]? = some w → (∀ l, s.params.stepLimit = some l → s.steps < l) →
    decode w = .illegal → step s = .next { s with status := .fatal (.illegal s.pc w) })

/-- R73: the don't-care bits of each opcode; two words that differ only in them decode to the same instruction and
execute identically. The field positions and codes are the spec's decision D3 (log entry 1). Which fields are unused
is the spec's inference from R66. -/
def Obligations.DontCareBitsAreIgnored : Prop :=
  (∀ op : Opcode, op.dontCare =
    if op ∈ [.load, .loadin1, .loadin2, .loadi] then 0x0C000000
    else if op ∈ [.store, .storein1, .storein2] then 0x0F000000
    else if op = .move then 0x00FFFFFF
    else if op = .nop then 0x07FFFFFF
    else if op ∈ [.jump, .jumpgt, .jumpeq, .jumpge, .jumplt, .jumpne, .jumple] then 0x07000000
    else 0x00000000) ∧
  (∀ w w' i, decode w = .legal i → w &&& ~~~i.opcode.dontCare = w' &&& ~~~i.opcode.dontCare →
    decode w' = .legal i ∧
    ∀ s t, s.code[s.pc.toNat]? = some w → step s = .next t →
      step { s with code := s.code.set s.pc.toNat w' } = .next { t with code := s.code.set s.pc.toNat w' })

/-- R75: canonical words and the round-trip laws, and that the second law fails for some legal word. The field
positions and codes are the spec's decision D3 (log entry 1). -/
def Obligations.EncodeAndDecodeAgree : Prop :=
  (∀ i : Instr, decode (encode i) = .legal i) ∧
  (∀ w, canonical w = true ↔ ∃ i, decode w = .legal i ∧ w &&& i.opcode.dontCare = 0) ∧
  (∀ w i, decode w = .legal i → canonical w = true → encode i = w) ∧
  (∀ w i, decode w = .legal i → encode i = w &&& ~~~i.opcode.dontCare) ∧
  (∃ w i, decode w = .legal i ∧ encode i ≠ w)

/-- Words of the spec's decoder vectors (`95_test_vectors.md` section 3), one of each family and one Illegal. The
field positions and codes are the spec's decision D3 (log entry 1). -/
def Obligations.SpecWordsDecode : Prop :=
  decode 0x43000001 = .legal (.load .acc 1) ∧ decode 0x4F000001 = .legal (.load .acc 1) ∧
  decode 0xB7ABCDEF = .legal (.move .in1 .acc) ∧ decode 0x8F00000A = .legal (.store 10) ∧
  decode 0x0F000005 = .legal (.addi .acc 5) ∧ decode 0x3B000004 = .legal (.and .acc 4) ∧
  decode 0xC8FFFFFA = .legal (.jumpgt 0xFFFFFA) ∧ decode 0xFFFFFFFF = .legal (.jump 0xFFFFFF) ∧
  decode 0x24123456 = .illegal

/-- R41: the four bytes of a word, the word of four bytes, that exactly the images with a truncated trailing word are
refused, and that code and data images are both read so before a run starts. -/
def Obligations.ImagesAreLittleEndian : Prop :=
  (∀ w : Word, wordBytes w =
    [w.extractLsb' 0 8, w.extractLsb' 8 8, w.extractLsb' 16 8, w.extractLsb' 24 8]) ∧
  (∀ b0 b1 b2 b3 : Byte, wordsOfImage [b0, b1, b2, b3] = some [b3 ++ b2 ++ b1 ++ b0]) ∧
  (∀ ws : List Word, wordsOfImage (imageOfWords ws) = some ws) ∧
  (∀ bs ws, wordsOfImage bs = some ws → imageOfWords ws = bs) ∧
  (∀ bs : List Byte, wordsOfImage bs = none ↔ bs.length % 4 ≠ 0) ∧
  (∀ code data cs ds params, wordsOfImage code = some cs → wordsOfImage data = some ds →
    launchImages code data params = launch cs ds params) ∧
  (∀ code data params, wordsOfImage code = none ∨ wordsOfImage data = none →
    ∃ e, launchImages code data params = .error e)

/-! ### Text -/

/-- R92: assembling the disassembly of a legal word gives the canonical word with the same instruction, and the word
itself where it is canonical. R92 is an inference the spec marks as its own, over the renderings of its decision D21
(log entry 7). -/
def Obligations.DisassemblyReassembles : Prop :=
  ∀ w i, decode w = .legal i →
    ∃ text, disassemble w = some text ∧ assemble text = .ok [encode i] ∧ decode (encode i) = .legal i ∧
      (canonical w = true → assemble text = .ok [w])

/-- R88's property and R90: None exactly for Illegal words; at most 20 characters, and 20 are reached. The figure 20
is an inference the spec marks as its own; the renderings are its decision D21 (log entry 7). -/
def Obligations.RenderingIsBounded : Prop :=
  (∀ w, disassemble w = none ↔ decode w = .illegal) ∧
  (∀ w text, disassemble w = some text → text.length ≤ 20) ∧
  (∃ w text, disassemble w = some text ∧ text.length = 20)

/-- R83's sign and range: which literals an opcode with an immediate accepts. It rests on the spec's own decision
D20 (log entry 7). -/
def Obligations.LiteralRangeIsChecked : Prop :=
  ∀ op t l, op.hasImm = true → readLiteral t = some l →
    (takeImm op [t] = .ok (some l, []) ↔
      if op ∈ [.subi, .addi, .sub, .add, .jump, .jumpgt, .jumpeq, .jumpge, .jumplt, .jumpne, .jumple]
      then -0x800000 ≤ l.value ∧ l.value ≤ 0xffffff
      else l.negative = false ∧ l.value ≤ 0xffffff)

/-- R84: the field of an accepted value is the value modulo 2^24; the literals -1 and 0xffffff give the same field,
which reads as -1. R84 is an inference the spec marks as its own (from R76 and R83). -/
def Obligations.LiteralFieldIsValueModulo : Prop :=
  (∀ l : Literal, ((literalField l).toNat : Int) = l.value % 2 ^ 24) ∧
  literalField ⟨true, 1⟩ = 0xFFFFFF ∧ literalField ⟨false, 0xffffff⟩ = 0xFFFFFF ∧
  (sext 0xFFFFFF).toInt = -1

/-- A line in error ends the assembly with that error and its 1-based line number, and no output (R85). That it is the
FIRST line in error which is reported is the model's deduction, not the spec's word (log entry 10, DEDUCED); which lines
are in error, and with which error, is fixed in part by the model too (log entries 8, 9, 10). -/
def Obligations.FirstLineErrorAbortsAssembly : Prop :=
  ∀ text k line e,
    (splitLines (joinCrLf text))[k]? = some line → readLine line = .error e →
    (∀ j l, j < k → (splitLines (joinCrLf text))[j]? = some l → ∃ x, readLine l = .ok x) →
    assemble text = .error { line := k + 1, error := e } ∧
    assembleImage text = .error { line := k + 1, error := e }

/-! ### Datapath -/

/-- R7: the two extensions of the immediate. -/
def Obligations.ExtensionsFillTheHighBits : Prop :=
  ∀ i : Imm,
    zext i = 0x00#8 ++ i ∧
    sext i = (if i.getLsbD 23 then 0xFF#8 else 0x00#8) ++ i ∧
    (zext i).toNat = i.toNat ∧
    (sext i).toInt = (if i.toNat < 2 ^ 23 then (i.toNat : Int) else i.toNat - 2 ^ 24)

/-- R105: the address calculator, in numbers. It rests on the spec's own decisions D5, D6, D7 (log entry 7). -/
def Obligations.AddressesAreCalculated : Prop :=
  ∀ (base : Word) (i : Imm),
    (eaDirect i).toNat = i.toNat ∧
    (eaIndexed base i).toNat = (base.toNat + i.toNat) % 2 ^ 32 ∧
    (eaSigned i).toNat = (if i.toNat < 2 ^ 23 then i.toNat else i.toNat + (2 ^ 32 - 2 ^ 24)) ∧
    ∀ (s : State) (d : Reg),
      readAddress (.load d i) s = some (eaDirect i) ∧ storeAddress (.store i) s = some (eaDirect i) ∧
      readAddress (.loadin1 d i) s = some (eaIndexed s.in1 i) ∧ storeAddress (.storein1 i) s = some (eaIndexed s.in1 i) ∧
      readAddress (.loadin2 d i) s = some (eaIndexed s.in2 i) ∧ storeAddress (.storein2 i) s = some (eaIndexed s.in2 i) ∧
      readAddress (.sub d i) s = some (eaSigned i) ∧ readAddress (.add d i) s = some (eaSigned i) ∧
      readAddress (.oplus d i) s = some (eaDirect i) ∧ readAddress (.or d i) s = some (eaDirect i) ∧
      readAddress (.and d i) s = some (eaDirect i)

/-- R106: the ALU, the sums modulo 2^32 and the logical operations bit by bit. -/
def Obligations.AluComputes : Prop :=
  ∀ a b : Word,
    (alu .add a b).toNat = (a.toNat + b.toNat) % 2 ^ 32 ∧
    ((alu .sub a b).toNat : Int) = ((a.toNat : Int) - b.toNat) % 2 ^ 32 ∧
    ∀ k, k < 32 →
      (alu .xor a b).getLsbD k = (a.getLsbD k != b.getLsbD k) ∧
      (alu .or a b).getLsbD k = (a.getLsbD k || b.getLsbD k) ∧
      (alu .and a b).getLsbD k = (a.getLsbD k && b.getLsbD k)

/-- R107, read on the pattern of ACC: the signed comparisons by bit 31. It rests on the spec's own decision D8 (log
entry 7). -/
def Obligations.ComparatorIsSigned : Prop :=
  ∀ acc : Word,
    taken .never acc = false ∧ taken .always acc = true ∧
    (taken .gt acc = true ↔ 0 < acc.toNat ∧ acc.toNat < 2 ^ 31) ∧
    (taken .eq acc = true ↔ acc.toNat = 0) ∧
    (taken .ge acc = true ↔ acc.toNat < 2 ^ 31) ∧
    (taken .lt acc = true ↔ 2 ^ 31 ≤ acc.toNat) ∧
    (taken .ne acc = true ↔ acc.toNat ≠ 0) ∧
    (taken .le acc = true ↔ acc.toNat = 0 ∨ 2 ^ 31 ≤ acc.toNat)

/-! ### Load family -/

/-- R120: LOAD completes when its read goes through; its result and its frame. It rests on the spec's own decisions
D4, D12 (log entry 7). -/
def Obligations.LoadCompletes : Prop :=
  ∀ d i s, Readable s (eaDirect i) →
    ∃ t, exec (.load d i) s = .next t ∧
      RegisterWritten s t d (s.mem.readWord (eaDirect i)) (readRecords s (eaDirect i))

/-- R121, R122: LOADIN1 and LOADIN2 complete when their read goes through; the base register is read before it may
be overwritten. It rests on the spec's own decisions D4, D6, D12 (log entry 7). -/
def Obligations.IndexedLoadsComplete : Prop :=
  ∀ d i s,
    (Readable s (eaIndexed s.in1 i) →
      ∃ t, exec (.loadin1 d i) s = .next t ∧
        RegisterWritten s t d (s.mem.readWord (eaIndexed s.in1 i)) (readRecords s (eaIndexed s.in1 i))) ∧
    (Readable s (eaIndexed s.in2 i) →
      ∃ t, exec (.loadin2 d i) s = .next t ∧
        RegisterWritten s t d (s.mem.readWord (eaIndexed s.in2 i)) (readRecords s (eaIndexed s.in2 i)))

/-- R123: LOADI always completes and records nothing; the high 8 bits of the result are 0. -/
def Obligations.LoadLiteralCompletes : Prop :=
  ∀ d i s, ∃ t, exec (.loadi d i) s = .next t ∧ RegisterWritten s t d (0x00#8 ++ i) []

/-! ### Store family -/

/-- R130 to R132: the stores complete when their address is admitted, and store ACC there. It rests on the spec's
own decisions D6, D11 (log entry 7). -/
def Obligations.StoresComplete : Prop :=
  ∀ i s,
    (Admitted s (eaDirect i) →
      ∃ t, exec (.store i) s = .next t ∧ WordStored s t (eaDirect i) s.acc) ∧
    (Admitted s (eaIndexed s.in1 i) →
      ∃ t, exec (.storein1 i) s = .next t ∧ WordStored s t (eaIndexed s.in1 i) s.acc) ∧
    (Admitted s (eaIndexed s.in2 i) →
      ∃ t, exec (.storein2 i) s = .next t ∧ WordStored s t (eaIndexed s.in2 i) s.acc)

/-- R133: MOVE always completes; PC as a source is the instruction's own index. -/
def Obligations.MoveCompletes : Prop :=
  ∀ r d s, ∃ t, exec (.move r d) s = .next t ∧
    RegisterWritten s t d (match r with | .pc => s.pc | .in1 => s.in1 | .in2 => s.in2 | .acc => s.acc) []

/-! ### Compute family -/

/-- R141 to R145: the immediate forms always complete. -/
def Obligations.ComputeImmediatesComplete : Prop :=
  ∀ d i s,
    (∃ t, exec (.subi d i) s = .next t ∧ RegisterWritten s t d (s.reg d - sext i) []) ∧
    (∃ t, exec (.addi d i) s = .next t ∧ RegisterWritten s t d (s.reg d + sext i) []) ∧
    (∃ t, exec (.oplusi d i) s = .next t ∧ RegisterWritten s t d (s.reg d ^^^ zext i) []) ∧
    (∃ t, exec (.ori d i) s = .next t ∧ RegisterWritten s t d (s.reg d ||| zext i) []) ∧
    (∃ t, exec (.andi d i) s = .next t ∧ RegisterWritten s t d (s.reg d &&& zext i) [])

/-- R146 to R150: the memory forms complete when their read goes through; SUB and ADD at the signed address, OPLUS,
OR and AND at the unsigned one. It rests on the spec's own decisions D4, D5, D12 (log entry 7). -/
def Obligations.ComputeMemoriesComplete : Prop :=
  ∀ d i s,
    (Readable s (eaSigned i) →
      (∃ t, exec (.sub d i) s = .next t ∧
        RegisterWritten s t d (s.reg d - s.mem.readWord (eaSigned i)) (readRecords s (eaSigned i))) ∧
      (∃ t, exec (.add d i) s = .next t ∧
        RegisterWritten s t d (s.reg d + s.mem.readWord (eaSigned i)) (readRecords s (eaSigned i)))) ∧
    (Readable s (eaDirect i) →
      (∃ t, exec (.oplus d i) s = .next t ∧
        RegisterWritten s t d (s.reg d ^^^ s.mem.readWord (eaDirect i)) (readRecords s (eaDirect i))) ∧
      (∃ t, exec (.or d i) s = .next t ∧
        RegisterWritten s t d (s.reg d ||| s.mem.readWord (eaDirect i)) (readRecords s (eaDirect i))) ∧
      (∃ t, exec (.and d i) s = .next t ∧
        RegisterWritten s t d (s.reg d &&& s.mem.readWord (eaDirect i)) (readRecords s (eaDirect i))))

/-! ### Jump family -/

/-- R161: NOP completes and moves PC by one; it never halts on a self-loop. -/
def Obligations.NopAdvances : Prop :=
  ∀ s, ∃ t, exec .nop s = .next t ∧ OnlyPcMoved s t (s.pc + 1) ∧ t.status = s.status

/-- R162: JUMP completes with the target `p + sext_32(i)`. -/
def Obligations.JumpIsTaken : Prop :=
  ∀ i s, ∃ t, exec (.jump i) s = .next t ∧ OnlyPcMoved s t (s.pc + sext i)

/-- R163 to R168: the conditional jumps complete, taken or not by the sign and value of ACC. It rests on the spec's
own decision D8 (log entry 7). -/
def Obligations.ConditionalJumpsComplete : Prop :=
  ∀ i s,
    (∃ t, exec (.jumpgt i) s = .next t ∧
      OnlyPcMoved s t (if 0 < s.acc.toInt then s.pc + sext i else s.pc + 1)) ∧
    (∃ t, exec (.jumpeq i) s = .next t ∧
      OnlyPcMoved s t (if s.acc = 0 then s.pc + sext i else s.pc + 1)) ∧
    (∃ t, exec (.jumpge i) s = .next t ∧
      OnlyPcMoved s t (if 0 ≤ s.acc.toInt then s.pc + sext i else s.pc + 1)) ∧
    (∃ t, exec (.jumplt i) s = .next t ∧
      OnlyPcMoved s t (if s.acc.toInt < 0 then s.pc + sext i else s.pc + 1)) ∧
    (∃ t, exec (.jumpne i) s = .next t ∧
      OnlyPcMoved s t (if s.acc ≠ 0 then s.pc + sext i else s.pc + 1)) ∧
    (∃ t, exec (.jumple i) s = .next t ∧
      OnlyPcMoved s t (if s.acc.toInt ≤ 0 then s.pc + sext i else s.pc + 1))

/-! ### Accesses that do not go through, and anomalies -/

/-- R48: an access, read or write, at an address that is not admitted is fatal and changes the status alone; without
ADDR_LIMIT no instruction ends a run so. It rests on the spec's own decision D11 (log entry 7). -/
def Obligations.AccessBeyondCapacityIsFatal : Prop :=
  (∀ ins s a, readAddress ins s = some a ∨ storeAddress ins s = some a →
    ∀ n, s.params.addrLimit = some n → n ≤ a.toNat →
      exec ins s = .next { s with status := .fatal (.capacity s.pc a) }) ∧
  (∀ ins s t, s.params.addrLimit = none → exec ins s = .next t → s.status = .running →
    ∀ p a, t.status ≠ .fatal (.capacity p a))

/-- R187: under `stop`, a read at an admitted address whose flag is false is fatal and changes the status alone. It
rests on the spec's own decision D12 (log entry 7). -/
def Obligations.UninitializedReadUnderStopIsFatal : Prop :=
  ∀ ins s a, readAddress ins s = some a → Admitted s a → s.valid.isValid a = false →
    s.params.uninitPolicy = .stop →
      exec ins s = .next { s with status := .fatal (.uninitStop s.pc a) }

/-- R188: under `warn` an uninitialized read appends one record and commits, the value read being 0; under
`suppress` it appends nothing. It rests on the spec's own decisions D4, D13 (log entry 7). -/
def Obligations.UninitializedReadIsRecorded : Prop :=
  ∀ ins s a, DataInv s → readAddress ins s = some a → Admitted s a → s.valid.isValid a = false →
    s.params.uninitPolicy ≠ .stop →
      s.mem.readWord a = 0 ∧
      ∃ t, exec ins s = .next t ∧ t.steps = s.steps + 1 ∧ SameData s t ∧
        (t.status = s.status ∨ t.status = .halted .selfLoop ∧ t.pc = s.pc) ∧
        (s.params.uninitPolicy = .warn → t.anomalies = s.anomalies ++ [{ index := s.pc, address := a }]) ∧
        (s.params.uninitPolicy = .suppress → t.anomalies = s.anomalies)

/-- R25: in every state of the invariant a word that was never written reads as 0. It rests on the spec's own
decision D4 (log entry 7). -/
def Obligations.NeverWrittenWordHoldsZero : Prop :=
  ∀ s a, DataInv s → s.valid.isValid a = false → s.mem.readWord a = 0

/-- R188: an instruction that executes under `suppress` leaves what it leaves under `warn` but for the record. It
rests on the spec's own decision D12 (log entry 7). -/
def Obligations.SuppressOnlyDropsRecords : Prop :=
  ∀ ins s t, s.params.uninitPolicy = .warn → exec ins s = .next t →
    exec ins { s with params := { s.params with uninitPolicy := .suppress } } =
      .next { t with anomalies := s.anomalies, params := { s.params with uninitPolicy := .suppress } }

/-! ### Controller -/

/-- A running state whose fetched word decodes to an instruction takes the step of that instruction (R101). -/
def Obligations.StepRunsDecodedInstruction : Prop :=
  ∀ s w i, s.status = .running → s.code[s.pc.toNat]? = some w →
    (∀ l, s.params.stepLimit = some l → s.steps < l) → decode w = .legal i → step s = exec i s

/-- R181, R182: the ends at fetch. -/
def Obligations.RunEndsAtEndOfCode : Prop :=
  ∀ s, s.status = .running →
    (s.pc.toNat = s.code.length → step s = .next { s with status := .halted .endOfCode }) ∧
    (s.code.length < s.pc.toNat → step s = .next { s with status := .halted .beyond, beyond := true })

/-- R103, R184: the step budget is checked before the fetch and after the end-of-code check; without STEP_LIMIT it
never ends a run. It rests on the spec's own decisions D9, D10 (log entry 7). -/
def Obligations.StepBudgetHalts : Prop :=
  (∀ s l, s.status = .running → s.pc.toNat < s.code.length → s.params.stepLimit = some l → l ≤ s.steps →
    step s = .next { s with status := .halted .stepLimit }) ∧
  (∀ s t, s.params.stepLimit = none → step s = .next t → t.status ≠ .halted .stepLimit)

/-- R189: the checks of one step in their order, the first that applies winning. It rests on the spec's own decision
D9 (log entry 7). -/
def Obligations.ChecksRunInOrder : Prop :=
  ∀ s, s.status = .running →
    (s.code.length ≤ s.pc.toNat →
      ∃ t, step s = .next t ∧
        t.status = .halted (if s.pc.toNat = s.code.length then .endOfCode else .beyond)) ∧
    (s.pc.toNat < s.code.length → (∃ l, s.params.stepLimit = some l ∧ l ≤ s.steps) →
      ∃ t, step s = .next t ∧ t.status = .halted .stepLimit) ∧
    ∀ w, s.code[s.pc.toNat]? = some w → (∀ l, s.params.stepLimit = some l → s.steps < l) →
      (decode w = .illegal → ∃ t, step s = .next t ∧ t.status = .fatal (.illegal s.pc w)) ∧
      ∀ i, decode w = .legal i →
        (∀ a, readAddress i s = some a ∨ storeAddress i s = some a → ¬ Admitted s a →
          ∃ t, step s = .next t ∧ t.status = .fatal (.capacity s.pc a)) ∧
        (∀ a, readAddress i s = some a → Admitted s a → s.valid.isValid a = false →
          (s.params.uninitPolicy = .stop →
            ∃ t, step s = .next t ∧ t.status = .fatal (.uninitStop s.pc a)) ∧
          (s.params.uninitPolicy = .warn →
            ∃ t, step s = .next t ∧ t.anomalies = s.anomalies ++ [{ index := s.pc, address := a }])) ∧
        ((∀ a, readAddress i s = some a → Readable s a) → (∀ a, storeAddress i s = some a → Admitted s a) →
          ∃ t, step s = .next t ∧ t.steps = s.steps + 1 ∧
            t.status = if t.pc = s.pc then .halted .selfLoop else .running)

/-- R190: a stop before Commit leaves everything but the status and the `beyond` flag as it was. R190 is an
inference the spec marks as its own (from R101 and R115). -/
def Obligations.StopsArePrecise : Prop :=
  ∀ s t, step s = .next t → t.status ≠ .running → t.status ≠ .halted .selfLoop →
    t = { s with status := t.status, beyond := t.beyond }

/-- R111, R183: a committed step ends the run exactly when its next-PC is the index it executed at. That this holds
for every way to the next-PC is an inference the spec marks as its own (from R108 to R110). -/
def Obligations.SelfLoopHalts : Prop :=
  ∀ s t, step s = .next t →
    (t.status = .halted .selfLoop ↔ t.steps = s.steps + 1 ∧ t.pc = s.pc) ∧
    (t.steps = s.steps + 1 → t.pc ≠ s.pc → t.status = .running)

/-- R113: a step counts exactly when it reaches Commit. It rests on the spec's own decision D10 (log entry 7). -/
def Obligations.CommittedStepsAreCounted : Prop :=
  ∀ s t, step s = .next t →
    (t.status = .running ∨ t.status = .halted .selfLoop → t.steps = s.steps + 1) ∧
    (t.status = .halted .endOfCode ∨ t.status = .halted .beyond ∨ t.status = .halted .stepLimit ∨
      (∃ f, t.status = .fatal f) → t.steps = s.steps)

/-- R112: an instruction writes at most its destination register or its data word, never both; a data write marks its
address valid. -/
def Obligations.OneWritePerStep : Prop :=
  ∀ ins s t, exec ins s = .next t →
    (dstOf ins = none ∨ storeAddress ins s = none) ∧
    (∀ r, r ≠ .pc → dstOf ins ≠ some r → t.reg r = s.reg r) ∧
    (∀ k, (∀ a, storeAddress ins s = some a → k / 4 ≠ a.toNat) → t.mem.readByte k = s.mem.readByte k) ∧
    (∀ a, storeAddress ins s = some a → Admitted s a → t.valid.isValid a = true) ∧
    (∀ a, t.valid.isValid a ≠ s.valid.isValid a → storeAddress ins s = some a)

/-- R26: a validity flag once true stays true; a store and the data load at reset set one, and nothing else does. -/
def Obligations.ValidityIsPermanent : Prop :=
  (∀ ins s t a, storeAddress ins s = some a → Admitted s a → exec ins s = .next t → t.valid.isValid a = true) ∧
  (∀ s t a, step s = .next t → s.valid.isValid a = true → t.valid.isValid a = true) ∧
  (∀ s t a, step s = .next t → s.valid.isValid a = false → t.valid.isValid a = true →
    ∃ w ins, s.code[s.pc.toNat]? = some w ∧ decode w = .legal ins ∧ storeAddress ins s = some a) ∧
  (∀ code data params s a, launch code data params = .ok s →
    (s.valid.isValid a = true ↔ a.toNat < data.length))

/-- R24, R54, R204: no step changes the code memory or a launch parameter. -/
def Obligations.CodeAndParametersNeverChange : Prop :=
  ∀ n s, (runFor n s).code = s.code ∧ (runFor n s).params = s.params

/-- R27, R31: the step count and the records are outputs only; a program cannot observe them. It rests on the spec's
own decision D14 (log entry 7). -/
def Obligations.RecordsDoNotAffectExecution : Prop :=
  ∀ ins s t n xs, exec ins s = .next t →
    ∃ t', exec ins { s with steps := n, anomalies := xs } = .next t' ∧
      (∀ r, t'.reg r = t.reg r) ∧ t'.mem = t.mem ∧ t'.valid = t.valid ∧ t'.status = t.status

/-- R100: a running state has a next state whatever it holds; a state whose status is terminal has none. It rests on
the spec's own decision D1 (log entry 7). The fault `runEnded` is the model's word for "no step" (log entry 4). -/
def Obligations.RunningStatesStep : Prop :=
  (∀ s, s.status = .running → ∃ t, step s = .next t) ∧
  (∀ s, s.status ≠ .running → step s = .fault .runEnded)

/-- The word that a STORE stores is read back by a LOAD of the same direct address as the next instruction, whichever
register it goes to: R206 for STORE followed by LOAD only, not for the indexed forms. R206 is an inference the spec
marks as its own (from R101 and R114). -/
def Obligations.StoredWordIsLoadedBack : Prop :=
  ∀ i d s, Admitted s (eaDirect i) →
    ∃ t u, exec (.store i) s = .next t ∧ exec (.load d i) t = .next u ∧ RegisterWritten t u d s.acc []

/-- The model's choice, not a rule of the spec: its trace of a step is PC and the step's word, present exactly when the
step passes Decode (log entry 13, DESIGN CHOICE). R116 says only that the controller MAY emit that pair for each such
step; its trace is the spec's own decision D19 (log entry 7). -/
def Obligations.TraceIsTheDecodedWord : Prop :=
  ∀ s p w, traceEvent s = some (p, w) ↔
    s.status = .running ∧ p = s.pc ∧ s.code[s.pc.toNat]? = some w ∧
      (∀ l, s.params.stepLimit = some l → s.steps < l) ∧ ∃ i, decode w = .legal i

/-- R180, R205: the status codes, and which statuses end a run normally, unfinished and faulted. It rests on the
spec's own decisions D14, D23 (log entry 7). -/
def Obligations.StatusCodesAndEnds : Prop :=
  Status.running.code = 0 ∧ (Status.halted .endOfCode).code = 1 ∧ (Status.halted .beyond).code = 2 ∧
  (Status.halted .selfLoop).code = 3 ∧ (Status.halted .stepLimit).code = 4 ∧
  (∀ p w, (Status.fatal (.illegal p w)).code = 5) ∧
  (∀ p a, (Status.fatal (.capacity p a)).code = 6) ∧
  (∀ p a, (Status.fatal (.uninitStop p a)).code = 7) ∧
  (∀ st : Status, st.runEnd = none ↔ st = .running) ∧
  (∀ st : Status, st.runEnd = some .normally ↔
    st = .halted .endOfCode ∨ st = .halted .beyond ∨ st = .halted .selfLoop) ∧
  (∀ st : Status, st.runEnd = some .faulted ↔ ∃ f, st = .fatal f) ∧
  (∀ st : Status, st.runEnd = some .unfinished ↔ st = .halted .stepLimit)

/-! ### Reset and launch -/

/-- R32 for an empty code file and no data file, with the default parameters of R5. It rests on the spec's own
decisions D4, D11, D12, D17 (log entry 7). The reset state as a launch of no code is the model's choice (log entry
3). -/
def Obligations.ResetState : Prop :=
  let s := State.reset
  s.pc = 0 ∧ s.in1 = 0 ∧ s.in2 = 0 ∧ s.acc = 0 ∧ s.code = [] ∧ s.status = .running ∧ s.steps = 0 ∧
  s.anomalies = [] ∧ s.beyond = false ∧ (∀ a, s.mem.readWord a = 0) ∧ (∀ a, s.valid.isValid a = false) ∧
  s.params.stepLimit = none ∧ s.params.addrLimit = none ∧ s.params.uninitPolicy = .warn ∧
  launch [] [] s.params = .ok s

/-- R32, R200: what the state holds after a launch, and that every code and data file that fits is launched. It
rests on the spec's own decisions D4, D17, D18 (log entry 7). The bound on data words is the model's (log entry 12). -/
def Obligations.LaunchLoadsCodeAndData : Prop :=
  ∀ (code data : List Word) (params : LaunchParams),
    (code.length ≤ 2 ^ 32 → data.length ≤ 2 ^ 32 → ∃ s, launch code data params = .ok s) ∧
    ∀ s, launch code data params = .ok s →
      s.pc = 0 ∧ s.in1 = 0 ∧ s.in2 = 0 ∧ s.acc = 0 ∧ s.code = code ∧ s.params = params ∧
      (∀ a : Word, ∀ w, data[a.toNat]? = some w → s.mem.readWord a = w ∧ s.valid.isValid a = true) ∧
      (∀ a : Word, data.length ≤ a.toNat → s.mem.readWord a = 0 ∧ s.valid.isValid a = false) ∧
      s.status = .running ∧ s.steps = 0 ∧ s.anomalies = [] ∧ s.beyond = false

/-- R203: an image with a truncated trailing word starts no run; every other pair of images that fits does, and with
no code the first step ends the run. The bound on data words is the model's (log entry 12). -/
def Obligations.TruncatedImagesStartNoRun : Prop :=
  (∀ (code data : List Byte) (params : LaunchParams),
    (code.length % 4 ≠ 0 ∨ data.length % 4 ≠ 0 → ∃ e, launchImages code data params = .error e) ∧
    (code.length % 4 = 0 → data.length % 4 = 0 → code.length ≤ 2 ^ 34 → data.length ≤ 2 ^ 34 →
      ∃ s, launchImages code data params = .ok s)) ∧
  (∀ data params s, launch [] data params = .ok s →
    step s = .next { s with status := .halted .endOfCode })

/-! ### Invariants and runs -/

/-- Every step keeps the invariant of the machine. The form of the two maps is the model's (log entry 2). -/
def Obligations.StepKeepsInvariant : Prop :=
  ∀ s t, MachineInv s → step s = .next t → MachineInv t

/-- The reset state meets the invariant. -/
def Obligations.ResetMeetsInvariant : Prop := MachineInv State.reset

/-- Every launched state meets the invariant. -/
def Obligations.LaunchMeetsInvariant : Prop :=
  ∀ code data params s, launch code data params = .ok s → MachineInv s

/-- D10, R103: under a step budget L no run counts more than L instructions, and every run ends. It rests on the
spec's own decision D10 (log entry 7). -/
def Obligations.StepBudgetBoundsRuns : Prop :=
  ∀ s l, s.params.stepLimit = some l → s.steps ≤ l →
    (∀ n, (runFor n s).steps ≤ l) ∧ (runFor (l - s.steps + 1) s).status ≠ .running

/-- R51, R206: along every run a word that was written keeps its value until a store to its own address. -/
def Obligations.RunKeepsUnstoredWords : Prop :=
  ∀ n s a,
    (∀ m w ins, m < n → (runFor m s).code[(runFor m s).pc.toNat]? = some w → decode w = .legal ins →
      storeAddress ins (runFor m s) ≠ some a) →
    (runFor n s).mem.readWord a = s.mem.readWord a ∧ (runFor n s).valid.isValid a = s.valid.isValid a
end

