-- ==== Sys2Proof/Laws/Decode.lean ====
section
/-! SUPPORT. The small lemmas of the codec: register codes, the fields of the packed words, words and bytes. -/

namespace Sys2Proof

@[simp] theorem Reg.ofCode_code (r : Reg) : Reg.ofCode r.code = r := by cases r <;> rfl

/-! ### Fields of the packed words -/

theorem extract_or (a b : Word) (l n : Nat) :
    (a ||| b).extractLsb' l n = a.extractLsb' l n ||| b.extractLsb' l n := by
  ext k hk
  simp

/-- A field read where it was placed. -/
theorem extract_field_same {n : Nat} (lo : Nat) (v : BitVec n) (h : lo + n ≤ 32) :
    (field lo v).extractLsb' lo n = v := by
  unfold field
  ext k hk
  simp only [BitVec.getElem_extractLsb', BitVec.getLsbD_shiftLeft, BitVec.getLsbD_setWidth]
  simp [show lo + k < 32 by omega, show k < 32 by omega, BitVec.getLsbD_eq_getElem hk]

/-- A field read where another one was placed. -/
theorem extract_field_other {n : Nat} (lo : Nat) (v : BitVec n) (l m : Nat) (h : l + m ≤ lo ∨ lo + n ≤ l) :
    (field lo v).extractLsb' l m = 0#m := by
  unfold field
  ext k hk
  simp only [BitVec.getElem_extractLsb', BitVec.getLsbD_shiftLeft, BitVec.getLsbD_setWidth, BitVec.getElem_zero]
  rcases h with h | h
  · simp [show l + k < lo by omega]
  · simp only [Bool.and_eq_false_iff]
    exact .inr (.inr (BitVec.getLsbD_of_ge _ _ (by omega)))

section Fields
variable (m s d : BitVec 2) (r : Reg) (c : BitVec 3) (mi : BitVec 1) (i : Imm)

@[simp] theorem packLoad_family : (packLoad m r i).extractLsb' 30 2 = Family.load.code := by
  unfold packLoad
  simp only [extract_or]
  rw [extract_field_same 30 _ (by decide), extract_field_other 28 _ 30 2 (by decide), extract_field_other 24 _ 30 2 (by decide), extract_field_other 0 _ 30 2 (by decide)]
  simp

@[simp] theorem packLoad_sub : (packLoad m r i).extractLsb' 28 2 = m := by
  unfold packLoad
  simp only [extract_or]
  rw [extract_field_other 30 _ 28 2 (by decide), extract_field_same 28 _ (by decide), extract_field_other 24 _ 28 2 (by decide), extract_field_other 0 _ 28 2 (by decide)]
  simp

@[simp] theorem packLoad_dst : (packLoad m r i).extractLsb' 24 2 = r.code := by
  unfold packLoad
  simp only [extract_or]
  rw [extract_field_other 30 _ 24 2 (by decide), extract_field_other 28 _ 24 2 (by decide), extract_field_same 24 _ (by decide), extract_field_other 0 _ 24 2 (by decide)]
  simp

@[simp] theorem packLoad_imm : (packLoad m r i).extractLsb' 0 24 = i := by
  unfold packLoad
  simp only [extract_or]
  rw [extract_field_other 30 _ 0 24 (by decide), extract_field_other 28 _ 0 24 (by decide), extract_field_other 24 _ 0 24 (by decide), extract_field_same 0 _ (by decide)]
  simp

@[simp] theorem packStore_family : (packStore m s d i).extractLsb' 30 2 = Family.store.code := by
  unfold packStore
  simp only [extract_or]
  rw [extract_field_same 30 _ (by decide), extract_field_other 28 _ 30 2 (by decide), extract_field_other 26 _ 30 2 (by decide), extract_field_other 24 _ 30 2 (by decide), extract_field_other 0 _ 30 2 (by decide)]
  simp

@[simp] theorem packStore_sub : (packStore m s d i).extractLsb' 28 2 = m := by
  unfold packStore
  simp only [extract_or]
  rw [extract_field_other 30 _ 28 2 (by decide), extract_field_same 28 _ (by decide), extract_field_other 26 _ 28 2 (by decide), extract_field_other 24 _ 28 2 (by decide), extract_field_other 0 _ 28 2 (by decide)]
  simp

@[simp] theorem packStore_src : (packStore m s d i).extractLsb' 26 2 = s := by
  unfold packStore
  simp only [extract_or]
  rw [extract_field_other 30 _ 26 2 (by decide), extract_field_other 28 _ 26 2 (by decide), extract_field_same 26 _ (by decide), extract_field_other 24 _ 26 2 (by decide), extract_field_other 0 _ 26 2 (by decide)]
  simp

@[simp] theorem packStore_dst : (packStore m s d i).extractLsb' 24 2 = d := by
  unfold packStore
  simp only [extract_or]
  rw [extract_field_other 30 _ 24 2 (by decide), extract_field_other 28 _ 24 2 (by decide), extract_field_other 26 _ 24 2 (by decide), extract_field_same 24 _ (by decide), extract_field_other 0 _ 24 2 (by decide)]
  simp

@[simp] theorem packStore_imm : (packStore m s d i).extractLsb' 0 24 = i := by
  unfold packStore
  simp only [extract_or]
  rw [extract_field_other 30 _ 0 24 (by decide), extract_field_other 28 _ 0 24 (by decide), extract_field_other 26 _ 0 24 (by decide), extract_field_other 24 _ 0 24 (by decide), extract_field_same 0 _ (by decide)]
  simp

@[simp] theorem packCompute_family : (packCompute mi c r i).extractLsb' 30 2 = Family.compute.code := by
  unfold packCompute
  simp only [extract_or]
  rw [extract_field_same 30 _ (by decide), extract_field_other 29 _ 30 2 (by decide), extract_field_other 26 _ 30 2 (by decide), extract_field_other 24 _ 30 2 (by decide), extract_field_other 0 _ 30 2 (by decide)]
  simp

@[simp] theorem packCompute_operandKind : (packCompute mi c r i).extractLsb' 29 1 = mi := by
  unfold packCompute
  simp only [extract_or]
  rw [extract_field_other 30 _ 29 1 (by decide), extract_field_same 29 _ (by decide), extract_field_other 26 _ 29 1 (by decide), extract_field_other 24 _ 29 1 (by decide), extract_field_other 0 _ 29 1 (by decide)]
  simp

@[simp] theorem packCompute_function : (packCompute mi c r i).extractLsb' 26 3 = c := by
  unfold packCompute
  simp only [extract_or]
  rw [extract_field_other 30 _ 26 3 (by decide), extract_field_other 29 _ 26 3 (by decide), extract_field_same 26 _ (by decide), extract_field_other 24 _ 26 3 (by decide), extract_field_other 0 _ 26 3 (by decide)]
  simp

@[simp] theorem packCompute_dst : (packCompute mi c r i).extractLsb' 24 2 = r.code := by
  unfold packCompute
  simp only [extract_or]
  rw [extract_field_other 30 _ 24 2 (by decide), extract_field_other 29 _ 24 2 (by decide), extract_field_other 26 _ 24 2 (by decide), extract_field_same 24 _ (by decide), extract_field_other 0 _ 24 2 (by decide)]
  simp

@[simp] theorem packCompute_imm : (packCompute mi c r i).extractLsb' 0 24 = i := by
  unfold packCompute
  simp only [extract_or]
  rw [extract_field_other 30 _ 0 24 (by decide), extract_field_other 29 _ 0 24 (by decide), extract_field_other 26 _ 0 24 (by decide), extract_field_other 24 _ 0 24 (by decide), extract_field_same 0 _ (by decide)]
  simp

@[simp] theorem packJump_family : (packJump c i).extractLsb' 30 2 = Family.jump.code := by
  unfold packJump
  simp only [extract_or]
  rw [extract_field_same 30 _ (by decide), extract_field_other 27 _ 30 2 (by decide), extract_field_other 0 _ 30 2 (by decide)]
  simp

@[simp] theorem packJump_condition : (packJump c i).extractLsb' 27 3 = c := by
  unfold packJump
  simp only [extract_or]
  rw [extract_field_other 30 _ 27 3 (by decide), extract_field_same 27 _ (by decide), extract_field_other 0 _ 27 3 (by decide)]
  simp

@[simp] theorem packJump_imm : (packJump c i).extractLsb' 0 24 = i := by
  unfold packJump
  simp only [extract_or]
  rw [extract_field_other 30 _ 0 24 (by decide), extract_field_other 27 _ 0 24 (by decide), extract_field_same 0 _ (by decide)]
  simp

end Fields

/-! ### Decoder -/

/-- A word is legal exactly when an opcode owns it, and then carries that opcode's operand fields. -/
theorem decode_legal_iff {w : Word} {i : Instr} :
    decode w = .legal i ↔ ∃ op, decodeOpcode w = some op ∧
      i = op.instr (Reg.ofCode (w.extractLsb' 26 2)) (Reg.ofCode (w.extractLsb' 24 2)) (w.extractLsb' 0 24) := by
  unfold decode
  cases decodeOpcode w <;> simp [eq_comm]

theorem decode_illegal_iff {w : Word} : decode w = .illegal ↔ decodeOpcode w = none := by
  unfold decode
  cases decodeOpcode w <;> simp

/-- The instruction built for an opcode has that opcode. -/
@[simp] theorem instr_opcode (op : Opcode) (s d : Reg) (i : Imm) : (op.instr s d i).opcode = op := by
  cases op <;> rfl

/-! ### Words and bytes -/

/-- The four bytes of a word form the word. -/
theorem wordOfBytes_wordBytes (w : Word) :
    wordOfBytes (w.extractLsb' 0 8) (w.extractLsb' 8 8) (w.extractLsb' 16 8) (w.extractLsb' 24 8) = w := by
  unfold wordOfBytes
  ext k hk
  simp only [BitVec.getElem_append, BitVec.getElem_extractLsb']
  split_ifs <;> (rw [← BitVec.getLsbD_eq_getElem hk]; congr 1; omega)

/-- The decoder over the bytes of a word is the decoder of the word. -/
theorem decodeBytes_wordBytes (w : Word) (bs : List Byte) :
    decodeBytes (wordBytes w ++ bs) =
      match decode w with
      | .legal i => .ok (i, bs)
      | .illegal => .error (.illegal w) := by
  cases h : decode w <;> simp [wordBytes, decodeBytes, wordOfBytes_wordBytes, h]

/-- The instruction of a table word is what the decoder reads from it. -/
theorem decodeTableWord_eq (nbits w : Nat) :
    decodeTableWord nbits w =
      match decode (tableWord nbits w) with
      | .legal i => some i
      | .illegal => none := by
  unfold decodeTableWord
  rw [← List.append_nil (wordBytes _), decodeBytes_wordBytes]
  cases decode (tableWord nbits w) <;> rfl

end Sys2Proof
end

