-- ==== Sys2Proof/Laws/Memory.lean ====
section
/-! SUPPORT. The laws of the data memory and the validity map: read after write, writes leave every other place alone, and
every operation keeps the canonical form. -/

namespace Sys2Proof.Machine

/-! ### Bytes -/

@[simp] theorem readByte_nil (k : Nat) : Memory.readByte [] k = 0 := rfl

theorem readByte_erase (m : Memory) (k j : Nat) :
    (m.erase k).readByte j = if j = k then 0 else m.readByte j := by
  induction m with
  | nil => simp [Memory.erase]
  | cons c m ih =>
    simp only [Memory.erase] at ih
    by_cases hck : c.1 = k
    · simp only [Memory.erase, List.filter_cons, hck, bne_self_eq_false, Bool.false_eq_true, if_false, ih,
        Memory.readByte]
      by_cases hj : j = k
      · simp [hj]
      · simp [hj, Ne.symm hj]
    · simp only [Memory.erase, List.filter_cons, bne_iff_ne, ne_eq, hck, not_false_eq_true, if_true,
        Memory.readByte, ih]
      by_cases hcj : c.1 = j
      · simp [hcj, show j ≠ k from hcj ▸ hck]
      · simp [hcj]

theorem readByte_insert (c : Host.Cell) (m : Memory) (j : Nat) (hm : ∀ d ∈ m, d.1 ≠ c.1) :
    (m.insert c).readByte j = if j = c.1 then c.2 else m.readByte j := by
  induction m with
  | nil => simp [Memory.insert, Memory.readByte, eq_comm]
  | cons d m ih =>
    have hd := hm d (by simp)
    have ih := ih fun e he => hm e (by simp [he])
    simp only [Memory.insert]
    split
    · simp [Memory.readByte, eq_comm]
    · simp only [Memory.readByte, ih]
      by_cases hj : d.1 = j
      · simp [hj, show j ≠ c.1 from hj ▸ hd]
      · simp [hj]

theorem mem_erase {c : Host.Cell} {m : Memory} {k : Nat} : c ∈ m.erase k ↔ c ∈ m ∧ c.1 ≠ k := by
  simp [Memory.erase]

theorem mem_insert {c d : Host.Cell} {m : Memory} : d ∈ m.insert c ↔ d = c ∨ d ∈ m := by
  induction m with
  | nil => simp [Memory.insert]
  | cons e m ih =>
    simp only [Memory.insert]
    split
    · simp
    · simp [ih, or_left_comm]

/-- Reading a byte after a byte was written, at the same key or at another one. -/
theorem readByte_writeByte (m : Memory) (k : Nat) (v : Byte) (j : Nat) :
    (m.writeByte k v).readByte j = if j = k then v else m.readByte j := by
  unfold Memory.writeByte
  split
  · next h => rw [readByte_erase, h]; rfl
  · rw [readByte_insert _ _ _ fun d hd => (mem_erase.1 hd).2, readByte_erase]
    split <;> rfl

/-- What a written cell list holds: old cells at other keys, and the new byte where it is not the unlisted one. -/
theorem mem_writeByte {c : Host.Cell} {m : Memory} {k : Nat} {v : Byte} (h : c ∈ m.writeByte k v) :
    c = (k, v) ∧ v ≠ Memory.unlisted ∨ c ∈ m ∧ c.1 ≠ k := by
  unfold Memory.writeByte at h
  split at h
  · exact .inr (mem_erase.1 h)
  · next hv => exact (mem_insert.1 h).imp (⟨·, hv⟩) mem_erase.1

theorem insert_rising {c : Host.Cell} {m : Memory} (hm : m.Pairwise fun a b => a.1 < b.1)
    (hc : ∀ d ∈ m, d.1 ≠ c.1) : (m.insert c).Pairwise fun a b => a.1 < b.1 := by
  induction m with
  | nil => simp [Memory.insert]
  | cons d m ih =>
    rw [List.pairwise_cons] at hm
    simp only [Memory.insert]
    split
    · next h =>
      refine List.pairwise_cons.2 ⟨fun e he => ?_, List.pairwise_cons.2 hm⟩
      rcases List.mem_cons.1 he with rfl | he
      · exact h
      · exact h.trans (hm.1 e he)
    · next h =>
      refine List.pairwise_cons.2 ⟨fun e he => ?_, ih hm.2 fun e he => hc e (by simp [he])⟩
      rcases mem_insert.1 he with rfl | he
      · exact lt_of_le_of_ne (not_lt.1 h) (hc d (by simp))
      · exact hm.1 e he

/-- A byte write keeps the canonical form. -/
theorem writeByte_wf {m : Memory} (hm : m.wf) (k : Nat) (v : Byte) : (m.writeByte k v).wf := by
  refine ⟨?_, fun c hc => ?_⟩
  · unfold Memory.writeByte
    split
    · exact hm.1.filter _
    · exact insert_rising (hm.1.filter _) fun d hd => (mem_erase.1 hd).2
  · rcases mem_writeByte hc with ⟨rfl, hv⟩ | ⟨h, -⟩
    · exact hv
    · exact hm.2 c h

/-! ### Words -/

/-- Reading a byte after a word was written: one of the word's four bytes, or the byte that stood there. -/
theorem readByte_writeWord (m : Memory) (a v : Word) (j : Nat) :
    (m.writeWord a v).readByte j =
      if j / 4 = a.toNat then v.extractLsb' (8 * (j % 4)) 8 else m.readByte j := by
  simp only [Memory.writeWord, readByte_writeByte, byteKey]
  by_cases h : j / 4 = a.toNat
  · have hj : j = 4 * a.toNat + j % 4 := by omega
    have hlt : j % 4 < 4 := Nat.mod_lt _ (by decide)
    rw [if_pos h]
    generalize j % 4 = r at *
    subst hj
    interval_cases r <;> simp
  · rw [if_neg h]
    split_ifs <;> first | omega | rfl

/-- Every word of the empty memory is 0 (R25). -/
@[simp] theorem readWord_nil (a : Word) : Memory.readWord [] a = 0 := by
  simp only [Memory.readWord, readByte_nil]
  rfl

/-- Reading a word after a word was written, at the same address or at another one. -/
theorem readWord_writeWord (m : Memory) (a v b : Word) :
    (m.writeWord a v).readWord b = if b = a then v else m.readWord b := by
  have key (k : Nat) (hk : k < 4) : byteKey b k / 4 = b.toNat ∧ byteKey b k % 4 = k := by
    unfold byteKey; omega
  simp only [Memory.readWord, readByte_writeWord, (key 0 (by decide)).1, (key 1 (by decide)).1, (key 2 (by decide)).1,
    (key 3 (by decide)).1, (key 0 (by decide)).2, (key 1 (by decide)).2, (key 2 (by decide)).2, (key 3 (by decide)).2]
  by_cases h : b = a
  · subst h
    simp only [if_true, wordOfBytes]
    ext k hk
    simp only [BitVec.getElem_append, BitVec.getElem_extractLsb']
    split_ifs <;> (rw [← BitVec.getLsbD_eq_getElem hk]; congr 1; omega)
  · have h' : b.toNat ≠ a.toNat := fun e => h (BitVec.eq_of_toNat_eq e)
    simp [h, h']

/-- A word write keeps the canonical form. -/
theorem writeWord_wf {m : Memory} (hm : m.wf) (a v : Word) : (m.writeWord a v).wf :=
  writeByte_wf (writeByte_wf (writeByte_wf (writeByte_wf hm _ _) _ _) _ _) _ _

/-- The memory after reset has the canonical form. -/
theorem reset_mem_wf : State.reset.mem.wf := by decide

/-- Every cell after a word write is an old one or a byte of the word's address. -/
theorem mem_writeWord {c : Host.Cell} {m : Memory} {a v : Word} (h : c ∈ m.writeWord a v) :
    c ∈ m ∨ c.1 / 4 = a.toNat := by
  have key (k : Nat) (hk : k < 4) : byteKey a k / 4 = a.toNat := by unfold byteKey; omega
  rcases mem_writeByte h with ⟨rfl, -⟩ | ⟨h, -⟩
  · exact .inr (key 3 (by decide))
  rcases mem_writeByte h with ⟨rfl, -⟩ | ⟨h, -⟩
  · exact .inr (key 2 (by decide))
  rcases mem_writeByte h with ⟨rfl, -⟩ | ⟨h, -⟩
  · exact .inr (key 1 (by decide))
  rcases mem_writeByte h with ⟨rfl, -⟩ | ⟨h, -⟩
  · exact .inr (key 0 (by decide))
  · exact .inl h

/-! ### Validity -/

theorem isValid_iff {v : ValidMap} {a : Word} : v.isValid a = true ↔ a.toNat ∈ v := by
  simp [ValidMap.isValid]

theorem validMap_mem_insert {n k : Nat} {v : ValidMap} : k ∈ v.insert n ↔ k = n ∨ k ∈ v := by
  induction v with
  | nil => simp [ValidMap.insert]
  | cons m v ih =>
    simp only [ValidMap.insert]
    split
    · simp
    · split
      · next h => subst h; simp
      · simp [ih, or_left_comm]

/-- Marking an address sets its flag and no other. -/
theorem isValid_mark (v : ValidMap) (a b : Word) : (v.mark a).isValid b = (b == a || v.isValid b) := by
  rw [Bool.eq_iff_iff, isValid_iff, ValidMap.mark, validMap_mem_insert, Bool.or_eq_true, isValid_iff, beq_iff_eq,
    BitVec.toNat_inj]

/-- Marking keeps the form of a validity map. -/
theorem mark_wf {v : ValidMap} (hv : v.wf) (a : Word) : (v.mark a).wf := by
  unfold ValidMap.mark
  generalize a.toNat = n
  induction v with
  | nil => simp [ValidMap.insert, ValidMap.wf]
  | cons m v ih =>
    rw [ValidMap.wf, List.pairwise_cons] at hv
    simp only [ValidMap.insert]
    split
    · next h =>
      refine List.pairwise_cons.2 ⟨fun e he => ?_, List.pairwise_cons.2 hv⟩
      rcases List.mem_cons.1 he with rfl | he
      · exact h
      · exact h.trans (hv.1 e he)
    · split
      · exact List.pairwise_cons.2 hv
      · next h h' =>
        refine List.pairwise_cons.2 ⟨fun e he => ?_, ih hv.2⟩
        rcases validMap_mem_insert.1 he with rfl | he
        · omega
        · exact hv.1 e he

end Sys2Proof.Machine
end

