-- ==== Sys2Proof/Laws/State.lean ====
section
/-! SUPPORT. One lemma per field per update of the state, so that no later proof unfolds a record update. -/

namespace Sys2Proof.Machine

section SetReg
variable (s : State) (r q : Reg) (v : Word)

@[simp] theorem setReg_code : (s.setReg r v).code = s.code := by cases r <;> rfl
@[simp] theorem setReg_mem : (s.setReg r v).mem = s.mem := by cases r <;> rfl
@[simp] theorem setReg_valid : (s.setReg r v).valid = s.valid := by cases r <;> rfl
@[simp] theorem setReg_status : (s.setReg r v).status = s.status := by cases r <;> rfl
@[simp] theorem setReg_steps : (s.setReg r v).steps = s.steps := by cases r <;> rfl
@[simp] theorem setReg_anomalies : (s.setReg r v).anomalies = s.anomalies := by cases r <;> rfl
@[simp] theorem setReg_beyond : (s.setReg r v).beyond = s.beyond := by cases r <;> rfl
@[simp] theorem setReg_params : (s.setReg r v).params = s.params := by cases r <;> rfl
@[simp] theorem setReg_reg : (s.setReg r v).reg q = if q = r then v else s.reg q := by
  cases r <;> cases q <;> rfl

end SetReg

section Registers
variable (s : State)

@[simp] theorem reg_pc : s.reg .pc = s.pc := rfl
@[simp] theorem reg_in1 : s.reg .in1 = s.in1 := rfl
@[simp] theorem reg_in2 : s.reg .in2 = s.in2 := rfl
@[simp] theorem reg_acc : s.reg .acc = s.acc := rfl

end Registers

section Halt
variable (h : HaltReason) (s : State) (r : Reg)

@[simp] theorem halt_pc : (halt h s).pc = s.pc := by cases h <;> rfl
@[simp] theorem halt_in1 : (halt h s).in1 = s.in1 := by cases h <;> rfl
@[simp] theorem halt_in2 : (halt h s).in2 = s.in2 := by cases h <;> rfl
@[simp] theorem halt_acc : (halt h s).acc = s.acc := by cases h <;> rfl
@[simp] theorem halt_code : (halt h s).code = s.code := by cases h <;> rfl
@[simp] theorem halt_mem : (halt h s).mem = s.mem := by cases h <;> rfl
@[simp] theorem halt_valid : (halt h s).valid = s.valid := by cases h <;> rfl
@[simp] theorem halt_status : (halt h s).status = .halted h := by cases h <;> rfl
@[simp] theorem halt_steps : (halt h s).steps = s.steps := by cases h <;> rfl
@[simp] theorem halt_anomalies : (halt h s).anomalies = s.anomalies := by cases h <;> rfl
@[simp] theorem halt_beyond : (halt h s).beyond = (s.beyond || h == .beyond) := by
  cases h <;> simp [halt]
@[simp] theorem halt_params : (halt h s).params = s.params := by cases h <;> rfl
@[simp] theorem halt_reg : (halt h s).reg r = s.reg r := by cases h <;> cases r <;> rfl

end Halt

section RaiseFatal
variable (f : FatalReason) (s : State) (r : Reg)

@[simp] theorem raiseFatal_pc : (raiseFatal f s).pc = s.pc := rfl
@[simp] theorem raiseFatal_in1 : (raiseFatal f s).in1 = s.in1 := rfl
@[simp] theorem raiseFatal_in2 : (raiseFatal f s).in2 = s.in2 := rfl
@[simp] theorem raiseFatal_acc : (raiseFatal f s).acc = s.acc := rfl
@[simp] theorem raiseFatal_code : (raiseFatal f s).code = s.code := rfl
@[simp] theorem raiseFatal_mem : (raiseFatal f s).mem = s.mem := rfl
@[simp] theorem raiseFatal_valid : (raiseFatal f s).valid = s.valid := rfl
@[simp] theorem raiseFatal_status : (raiseFatal f s).status = .fatal f := rfl
@[simp] theorem raiseFatal_steps : (raiseFatal f s).steps = s.steps := rfl
@[simp] theorem raiseFatal_anomalies : (raiseFatal f s).anomalies = s.anomalies := rfl
@[simp] theorem raiseFatal_beyond : (raiseFatal f s).beyond = s.beyond := rfl
@[simp] theorem raiseFatal_params : (raiseFatal f s).params = s.params := rfl
@[simp] theorem raiseFatal_reg : (raiseFatal f s).reg r = s.reg r := by cases r <;> rfl

end RaiseFatal

section MemWrite
variable (a v : Word) (s : State) (r : Reg)

@[simp] theorem memWrite_pc : (memWrite a v s).pc = s.pc := rfl
@[simp] theorem memWrite_in1 : (memWrite a v s).in1 = s.in1 := rfl
@[simp] theorem memWrite_in2 : (memWrite a v s).in2 = s.in2 := rfl
@[simp] theorem memWrite_acc : (memWrite a v s).acc = s.acc := rfl
@[simp] theorem memWrite_code : (memWrite a v s).code = s.code := rfl
@[simp] theorem memWrite_mem : (memWrite a v s).mem = s.mem.writeWord a v := rfl
@[simp] theorem memWrite_valid : (memWrite a v s).valid = s.valid.mark a := rfl
@[simp] theorem memWrite_status : (memWrite a v s).status = s.status := rfl
@[simp] theorem memWrite_steps : (memWrite a v s).steps = s.steps := rfl
@[simp] theorem memWrite_anomalies : (memWrite a v s).anomalies = s.anomalies := rfl
@[simp] theorem memWrite_beyond : (memWrite a v s).beyond = s.beyond := rfl
@[simp] theorem memWrite_params : (memWrite a v s).params = s.params := rfl
@[simp] theorem memWrite_reg : (memWrite a v s).reg r = s.reg r := by cases r <;> rfl

end MemWrite

section Fetching
variable (s : State) (w : Word) (r : Reg)

@[simp] theorem fetching_pc : (s.fetching w).pc = s.pc := rfl
@[simp] theorem fetching_in1 : (s.fetching w).in1 = s.in1 := rfl
@[simp] theorem fetching_in2 : (s.fetching w).in2 = s.in2 := rfl
@[simp] theorem fetching_acc : (s.fetching w).acc = s.acc := rfl
@[simp] theorem fetching_code : (s.fetching w).code = placeWord s.code s.pc.toNat w := rfl
@[simp] theorem fetching_mem : (s.fetching w).mem = s.mem := rfl
@[simp] theorem fetching_valid : (s.fetching w).valid = s.valid := rfl
@[simp] theorem fetching_status : (s.fetching w).status = .running := rfl
@[simp] theorem fetching_steps : (s.fetching w).steps = s.steps := rfl
@[simp] theorem fetching_anomalies : (s.fetching w).anomalies = s.anomalies := rfl
@[simp] theorem fetching_beyond : (s.fetching w).beyond = s.beyond := rfl
@[simp] theorem fetching_reg : (s.fetching w).reg r = s.reg r := by cases r <;> rfl

end Fetching

end Sys2Proof.Machine
end

