-- ==== Sys2Proof/Laws/Ops.lean ====
section
/-! SUPPORT. One lemma per shared operation of the controller that says once what it can do: the commit field by field, the
data accesses, the forms that instructions share, and the fetch. -/

namespace Sys2Proof.Machine

/-! ### Commit -/

section Commit
variable (e : Effect) (s : State)

@[simp] theorem commit_pc : (commit e s).pc = nextPc s.pc e := by
  unfold commit; split <;> simp

@[simp] theorem commit_steps : (commit e s).steps = s.steps + 1 := by
  unfold commit; split <;> simp

@[simp] theorem commit_anomalies : (commit e s).anomalies = s.anomalies ++ e.anomaly.toList := by
  unfold commit; split <;> simp

@[simp] theorem applyMemWrite_code (w : Option (Word × Word)) : (applyMemWrite w s).code = s.code := by
  rcases w with _ | ⟨a, v⟩ <;> rfl

@[simp] theorem applyMemWrite_params (w : Option (Word × Word)) : (applyMemWrite w s).params = s.params := by
  rcases w with _ | ⟨a, v⟩ <;> rfl

@[simp] theorem applyMemWrite_status (w : Option (Word × Word)) : (applyMemWrite w s).status = s.status := by
  rcases w with _ | ⟨a, v⟩ <;> rfl

@[simp] theorem applyMemWrite_beyond (w : Option (Word × Word)) : (applyMemWrite w s).beyond = s.beyond := by
  rcases w with _ | ⟨a, v⟩ <;> rfl

@[simp] theorem applyMemWrite_reg (w : Option (Word × Word)) (r : Reg) : (applyMemWrite w s).reg r = s.reg r := by
  rcases w with _ | ⟨a, v⟩ <;> simp [applyMemWrite]

@[simp] theorem applyRegWrite_code (w : Option (Reg × Word)) : (applyRegWrite w s).code = s.code := by
  rcases w with _ | ⟨r, v⟩ <;> simp [applyRegWrite]

@[simp] theorem applyRegWrite_params (w : Option (Reg × Word)) : (applyRegWrite w s).params = s.params := by
  rcases w with _ | ⟨r, v⟩ <;> simp [applyRegWrite]

@[simp] theorem applyRegWrite_status (w : Option (Reg × Word)) : (applyRegWrite w s).status = s.status := by
  rcases w with _ | ⟨r, v⟩ <;> simp [applyRegWrite]

@[simp] theorem applyRegWrite_beyond (w : Option (Reg × Word)) : (applyRegWrite w s).beyond = s.beyond := by
  rcases w with _ | ⟨r, v⟩ <;> simp [applyRegWrite]

@[simp] theorem applyRegWrite_mem (w : Option (Reg × Word)) : (applyRegWrite w s).mem = s.mem := by
  rcases w with _ | ⟨r, v⟩ <;> simp [applyRegWrite]

@[simp] theorem applyRegWrite_valid (w : Option (Reg × Word)) : (applyRegWrite w s).valid = s.valid := by
  rcases w with _ | ⟨r, v⟩ <;> simp [applyRegWrite]

@[simp] theorem commit_code : (commit e s).code = s.code := by
  unfold commit; split <;> simp

@[simp] theorem commit_params : (commit e s).params = s.params := by
  unfold commit; split <;> simp

@[simp] theorem commit_beyond : (commit e s).beyond = s.beyond := by
  unfold commit; split <;> simp

@[simp] theorem commit_status :
    (commit e s).status = if nextPc s.pc e = s.pc then .halted .selfLoop else s.status := by
  unfold commit; split <;> simp [*]

@[simp] theorem commit_mem : (commit e s).mem = (applyMemWrite e.memWrite s).mem := by
  unfold commit; split <;> simp

@[simp] theorem commit_valid : (commit e s).valid = (applyMemWrite e.memWrite s).valid := by
  unfold commit; split <;> simp

/-- A register other than PC after a commit: the value written to it, or what it held. -/
theorem commit_reg (r : Reg) (hr : r ≠ .pc) :
    (commit e s).reg r =
      match e.regWrite with
      | some (q, v) => if r = q then v else s.reg r
      | none => s.reg r := by
  have aux : (commit e s).reg r = (applyRegWrite e.regWrite (applyMemWrite e.memWrite s)).reg r := by
    unfold commit
    cases r <;> first | exact absurd rfl hr | (split <;> simp [State.reg])
  rw [aux]
  rcases e.regWrite with _ | ⟨q, v⟩ <;> simp [applyRegWrite]

end Commit

/-- The next-PC of an effect that writes a register: the value, where that register is PC (R110). -/
theorem nextPc_regWrite (p : Word) (d : Reg) (v : Word) (x : Option Anomaly) :
    nextPc p { regWrite := some (d, v), anomaly := x } = if d = .pc then v else p + 1 := by
  cases d <;> rfl

/-- PC plus one is another index (R161: a NOP never halts on a self-loop). -/
theorem succ_ne (p : Word) : p + 1 ≠ p := by
  intro h
  have := congrArg BitVec.toNat h
  simp only [BitVec.toNat_add] at this
  have := p.isLt
  simp at *

/-! ### Data accesses -/

theorem admits_iff {s : State} {a : Word} : s.admits a = true ↔ Admitted s a := by
  unfold State.admits Admitted
  cases s.params.addrLimit <;> simp

/-- A read that goes through gives the word at the address and its records. -/
theorem dataRead_ok {s : State} {a : Word} (h : Readable s a) :
    ∃ x : Option Anomaly, dataRead a s = .ok (s.mem.readWord a, x) ∧ x.toList = readRecords s a := by
  have ha := admits_iff.2 h.1
  unfold dataRead readRecords
  cases hv : s.valid.isValid a
  · have hp := h.2.resolve_left (by simp [hv])
    cases hpol : s.params.uninitPolicy <;> simp_all
  · simp [ha]

/-- What a read can do: give the word and its records, or be turned away by the capacity check or the policy. -/
theorem dataRead_cases (a : Word) (s : State) :
    (Readable s a ∧ ∃ x : Option Anomaly, dataRead a s = .ok (s.mem.readWord a, x) ∧ x.toList = readRecords s a) ∨
    (¬ Admitted s a ∧ dataRead a s = .error (.capacity s.pc a)) ∨
    (Admitted s a ∧ s.valid.isValid a = false ∧ s.params.uninitPolicy = .stop ∧
      dataRead a s = .error (.uninitStop s.pc a)) := by
  by_cases ha : Admitted s a
  · by_cases hr : s.valid.isValid a = true ∨ s.params.uninitPolicy ≠ .stop
    · exact .inl ⟨⟨ha, hr⟩, dataRead_ok ⟨ha, hr⟩⟩
    · have ha' := admits_iff.2 ha
      push Not at hr
      have hv : s.valid.isValid a = false := by simpa using hr.1
      exact .inr (.inr ⟨ha, hv, hr.2, by simp [dataRead, ha', hv, hr.2]⟩)
  · exact .inr (.inl ⟨ha, by simp [dataRead, mt admits_iff.1 ha]⟩)

/-! ### Shared forms -/

/-- A register-writing form leaves what `RegisterWritten` says. -/
theorem commit_registerWritten (s : State) (d : Reg) (v : Word) (x : Option Anomaly) :
    RegisterWritten s (commit { regWrite := some (d, v), anomaly := x } s) d v x.toList where
  committed := by constructor <;> simp [nextPc_regWrite]
  written hd := by rw [commit_reg _ _ _ hd]; simp
  others r hr hd := by rw [commit_reg _ _ _ hr]; simp [hd]
  data := by constructor <;> simp [applyMemWrite]
  anomalies := by simp

/-- A storing form leaves what `WordStored` says. -/
theorem commit_wordStored (s : State) (a v : Word) :
    WordStored s (commit { memWrite := some (a, v) } s) a v where
  committed := by constructor <;> simp [nextPc]
  registers r hr := by rw [commit_reg _ _ _ hr]
  stored := by simp [applyMemWrite, readWord_writeWord]
  marked := by simp [applyMemWrite, isValid_mark]
  bytes k hk := by simp [applyMemWrite, readByte_writeWord, hk]
  valid b hb := by simp [applyMemWrite, isValid_mark, hb]
  anomalies := by simp

/-- A form that writes nothing leaves what `OnlyPcMoved` says. -/
theorem commit_onlyPcMoved (s : State) (target : Option Word) :
    OnlyPcMoved s (commit { target := target } s) (target.getD (s.pc + 1)) where
  committed :=
    { pc := commit_pc _ s, steps := commit_steps _ s, status := commit_status _ s, beyond := commit_beyond _ s,
      code := commit_code _ s, params := commit_params _ s }
  registers r hr := by rw [commit_reg _ _ _ hr]
  data := by constructor <;> simp [applyMemWrite]
  anomalies := by simp

/-- A reading form whose read goes through commits the register write. -/
theorem readToReg_readable {s : State} {a : Word} (h : Readable s a) (d : Reg) (f : Word → Word) :
    ∃ t, readToReg d a f s = .next t ∧ RegisterWritten s t d (f (s.mem.readWord a)) (readRecords s a) := by
  obtain ⟨x, hx, hl⟩ := dataRead_ok h
  exact ⟨_, by simp only [readToReg, hx], hl ▸ commit_registerWritten s d _ x⟩

/-- A storing form at an admitted address commits the store of ACC. -/
theorem storeAcc_admitted {s : State} {a : Word} (h : Admitted s a) :
    ∃ t, storeAcc a s = .next t ∧ WordStored s t a s.acc :=
  ⟨_, by simp only [storeAcc, admits_iff.2 h, if_true], commit_wordStored s a s.acc⟩

/-- A storing form at an address that is not admitted only raises the capacity condition. -/
theorem storeAcc_notAdmitted {s : State} {a : Word} (h : ¬ Admitted s a) :
    storeAcc a s = .next (raiseFatal (.capacity s.pc a) s) := by
  simp [storeAcc, mt admits_iff.1 h]

/-! ### Fetch -/

theorem budgetSpent_iff {s : State} : s.budgetSpent = true ↔ ∃ l, s.params.stepLimit = some l ∧ l ≤ s.steps := by
  unfold State.budgetSpent
  cases s.params.stepLimit <;> simp

/-- What the Fetch stage can give. -/
theorem fetch_cases (s : State) :
    (s.pc.toNat = s.code.length ∧ fetch s = .ended .endOfCode) ∨
    (s.code.length < s.pc.toNat ∧ fetch s = .ended .beyond) ∨
    (s.pc.toNat < s.code.length ∧ s.budgetSpent = true ∧ fetch s = .ended .stepLimit) ∨
    (∃ w, s.code[s.pc.toNat]? = some w ∧ s.budgetSpent = false ∧ fetch s = .word w) := by
  unfold fetch
  rcases h : s.code[s.pc.toNat]? with _ | w
  · have hle := List.getElem?_eq_none_iff.1 h
    by_cases hlt : s.code.length < s.pc.toNat
    · simp [hlt]
    · exact .inl ⟨by omega, by simp [hlt]⟩
  · have hlt : s.pc.toNat < s.code.length := (List.getElem?_eq_some_iff.1 h).1
    cases hb : s.budgetSpent <;> simp [hlt]

/-- A word placed at an index is what stands there. -/
theorem placeWord_get (code : List Word) (p : Nat) (w : Word) : (placeWord code p w)[p]? = some w := by
  unfold placeWord
  rw [List.getElem?_set_self]
  simp only [List.length_append, List.length_replicate]
  omega

/-- A state made to fetch a word fetches it. -/
theorem fetch_fetching (s : State) (w : Word) : fetch (s.fetching w) = .word w := by
  have hb : (s.fetching w).budgetSpent = false := by
    cases h : s.budgetSpent
    · have hp : (s.fetching w).params = s.params := by simp [State.fetching, h]
      rw [← h]
      unfold State.budgetSpent
      rw [hp]
      rfl
    · have hp : (s.fetching w).params.stepLimit = none := by simp [State.fetching, h]
      simp only [State.budgetSpent, hp]
  unfold fetch
  rw [fetching_code, fetching_pc, placeWord_get, hb]
  rfl

/-- A running state whose fetch ends the run takes the step into that end. -/
theorem step_ended {s : State} {h : HaltReason} (hs : s.status = .running) (hf : fetch s = .ended h) :
    step s = .next (halt h s) := by
  simp only [step, hs, hf]

/-- A running state that fetches an Illegal word takes the step into that fatal condition. -/
theorem step_illegal {s : State} {w : Word} (hs : s.status = .running) (hf : fetch s = .word w)
    (hd : decode w = .illegal) : step s = .next (raiseFatal (.illegal s.pc w) s) := by
  simp only [step, hs, hf, hd]

/-- A running state that fetches a legal word takes the step of its instruction. -/
theorem step_legal {s : State} {w : Word} {i : Instr} (hs : s.status = .running) (hf : fetch s = .word w)
    (hd : decode w = .legal i) : step s = exec i s := by
  simp only [step, hs, hf, hd]

/-- The next step of a state with a table word placed runs the instruction the decoder reads from it. -/
theorem step_withFetchWord (s : State) (nbits w : Nat) (i : Instr) (h : decode (tableWord nbits w) = .legal i) :
    step (s.withFetchWord nbits w) = exec i (s.withFetchWord nbits w) :=
  step_legal rfl (fetch_fetching s _) h

end Sys2Proof.Machine
end

