-- ==== Sys2Proof/Laws/Exec.lean ====
section
/-! SUPPORT. What one instruction and one step can do, said once: every claim about all instructions derives from
`exec_cases`, every claim about all steps from `step_cases`. -/

namespace Sys2Proof.Machine

/-- What an instruction may commit: its register write goes to the destination it carries, its data write is ACC at its
store address, its records are those of its read. -/
structure EffectOf (ins : Instr) (s : State) (e : Effect) : Prop where
  reg : ∀ r v, e.regWrite = some (r, v) → dstOf ins = some r
  mem : ∀ a v, e.memWrite = some (a, v) → storeAddress ins s = some a ∧ v = s.acc ∧ Admitted s a
  stores : ∀ a, storeAddress ins s = some a → e.memWrite = some (a, s.acc)
  read : ∀ a, readAddress ins s = some a → Readable s a ∧ e.anomaly.toList = readRecords s a
  noRead : readAddress ins s = none → e.anomaly = none

/-- Why an instruction may end the run before its commit (R115). -/
inductive FatalOf (ins : Instr) (s : State) : FatalReason → Prop where
  | capacity (a : Word) (h : readAddress ins s = some a ∨ storeAddress ins s = some a) (ha : ¬ Admitted s a) :
    FatalOf ins s (.capacity s.pc a)
  | uninitStop (a : Word) (h : readAddress ins s = some a) (ha : Admitted s a) (hv : s.valid.isValid a = false)
    (hp : s.params.uninitPolicy = .stop) : FatalOf ins s (.uninitStop s.pc a)

/-- The two outcomes of an instruction. -/
inductive ExecResult (ins : Instr) (s : State) : Host.Outcome State Fault Refusal → Prop where
  | committed (e : Effect) (h : EffectOf ins s e) : ExecResult ins s (.next (commit e s))
  | stopped (f : FatalReason) (h : FatalOf ins s f) : ExecResult ins s (.next (raiseFatal f s))

theorem writeReg_result {ins : Instr} {s : State} {d : Reg} {v : Word} (hd : dstOf ins = some d)
    (hr : readAddress ins s = none) (hs : storeAddress ins s = none) : ExecResult ins s (writeReg d v s) :=
  .committed _
    { reg := by rintro r v ⟨⟩; exact hd
      mem := by rintro a v ⟨⟩
      stores := by simp [hs]
      read := by simp [hr]
      noRead := fun _ => rfl }

theorem readToReg_result {ins : Instr} {s : State} {d : Reg} {a : Word} {f : Word → Word} (hd : dstOf ins = some d)
    (hr : readAddress ins s = some a) (hs : storeAddress ins s = none) : ExecResult ins s (readToReg d a f s) := by
  rcases dataRead_cases a s with ⟨hread, x, hx, hl⟩ | ⟨ha, hx⟩ | ⟨ha, hv, hp, hx⟩
  · simp only [readToReg, hx]
    refine .committed _ ⟨?_, ?_, ?_, ?_, ?_⟩
    · rintro r v ⟨⟩; exact hd
    · rintro a v ⟨⟩
    · simp [hs]
    · intro b hb
      obtain rfl : a = b := by simpa [hr] using hb
      exact ⟨hread, hl⟩
    · simp [hr]
  · simp only [readToReg, hx]
    exact .stopped _ (.capacity a (.inl hr) ha)
  · simp only [readToReg, hx]
    exact .stopped _ (.uninitStop a hr ha hv hp)

theorem storeAcc_result {ins : Instr} {s : State} {a : Word} (hr : readAddress ins s = none)
    (hs : storeAddress ins s = some a) : ExecResult ins s (storeAcc a s) := by
  by_cases ha : Admitted s a
  · simp only [storeAcc, admits_iff.2 ha, if_true]
    refine .committed _ ⟨?_, ?_, ?_, ?_, ?_⟩
    · rintro r v ⟨⟩
    · rintro b v ⟨⟩; exact ⟨hs, rfl, ha⟩
    · intro b hb
      obtain rfl : a = b := by simpa [hs] using hb
      rfl
    · simp [hr]
    · exact fun _ => rfl
  · rw [storeAcc_notAdmitted ha]
    exact .stopped _ (.capacity a (.inr hs) ha)

theorem moved_result {ins : Instr} {s : State} (target : Option Word) (hr : readAddress ins s = none)
    (hs : storeAddress ins s = none) : ExecResult ins s (.next (commit { target := target } s)) :=
  .committed _
    { reg := by rintro r v ⟨⟩
      mem := by rintro a v ⟨⟩
      stores := by simp [hs]
      read := by simp [hr]
      noRead := fun _ => rfl }

/-- Everything an instruction can do: commit an effect of its own, or end the run with a fatal condition of its own. -/
theorem exec_cases (ins : Instr) (s : State) : ExecResult ins s (exec ins s) := by
  cases ins with
  | load d i => exact readToReg_result rfl rfl rfl
  | loadin1 d i => exact readToReg_result rfl rfl rfl
  | loadin2 d i => exact readToReg_result rfl rfl rfl
  | loadi d i => exact writeReg_result rfl rfl rfl
  | store i => exact storeAcc_result rfl rfl
  | storein1 i => exact storeAcc_result rfl rfl
  | storein2 i => exact storeAcc_result rfl rfl
  | move r d => exact writeReg_result rfl rfl rfl
  | subi d i => exact writeReg_result rfl rfl rfl
  | addi d i => exact writeReg_result rfl rfl rfl
  | oplusi d i => exact writeReg_result rfl rfl rfl
  | ori d i => exact writeReg_result rfl rfl rfl
  | andi d i => exact writeReg_result rfl rfl rfl
  | sub d i => exact readToReg_result rfl rfl rfl
  | add d i => exact readToReg_result rfl rfl rfl
  | oplus d i => exact readToReg_result rfl rfl rfl
  | or d i => exact readToReg_result rfl rfl rfl
  | and d i => exact readToReg_result rfl rfl rfl
  | nop => exact moved_result none rfl rfl
  | jump i => exact moved_result _ rfl rfl
  | jumpgt i => exact moved_result _ rfl rfl
  | jumpeq i => exact moved_result _ rfl rfl
  | jumpge i => exact moved_result _ rfl rfl
  | jumplt i => exact moved_result _ rfl rfl
  | jumpne i => exact moved_result _ rfl rfl
  | jumple i => exact moved_result _ rfl rfl

/-- The three outcomes of a step of a running state: the run ends at the fetch, the word is Illegal, or its instruction
executes. -/
theorem step_cases {s t : State} (h : step s = .next t) :
    s.status = .running ∧
      ((∃ r, fetch s = .ended r ∧ t = halt r s) ∨
       (∃ w, fetch s = .word w ∧ decode w = .illegal ∧ t = raiseFatal (.illegal s.pc w) s) ∨
       (∃ w i, fetch s = .word w ∧ decode w = .legal i ∧ exec i s = .next t)) := by
  unfold step at h
  split at h
  · next hs =>
    refine ⟨hs, ?_⟩
    split at h
    · next r hf => exact .inl ⟨r, hf, by simpa using h.symm⟩
    · next w hf =>
      split at h
      · next hd => exact .inr (.inl ⟨w, hf, hd, by simpa using h.symm⟩)
      · next i hd => exact .inr (.inr ⟨w, i, hf, hd, h⟩)
  · simp at h
  · simp at h

end Sys2Proof.Machine
end

