-- ==== Sys2Proof/Laws/PerInstr.lean ====
section
/-! SUPPORT. A statement about every instruction as syntax, with one lemma per constructor: the encoder's word lies in the row
of spec/opcode_table.json that the instruction belongs to, with 0 in every don't-care bit (R73, R74). -/

namespace Sys2Proof.Laws

/-! ### The match and mask columns of spec/opcode_table.json -/

/-- The mask of an opcode's row. -/
def rowMask (op : Opcode) : Word :=
  match op.family with
  | .load => 0xF0000000
  | .store => 0xF0000000
  | .compute => 0xFC000000
  | .jump => 0xF8000000

/-- The match of an opcode's row. -/
def rowMatch : Opcode → Word
  | .load => 0x40000000
  | .loadin1 => 0x50000000
  | .loadin2 => 0x60000000
  | .loadi => 0x70000000
  | .store => 0x80000000
  | .storein1 => 0x90000000
  | .storein2 => 0xA0000000
  | .move => 0xB0000000
  | .subi => 0x08000000
  | .addi => 0x0C000000
  | .oplusi => 0x10000000
  | .ori => 0x14000000
  | .andi => 0x18000000
  | .sub => 0x28000000
  | .add => 0x2C000000
  | .oplus => 0x30000000
  | .or => 0x34000000
  | .and => 0x38000000
  | .nop => 0xC0000000
  | .jump => 0xF8000000
  | .jumpgt => 0xC8000000
  | .jumpeq => 0xD0000000
  | .jumpge => 0xD8000000
  | .jumplt => 0xE0000000
  | .jumpne => 0xE8000000
  | .jumple => 0xF0000000

/-! ### The packed words under the masks -/

theorem or_and (a b m : Word) : (a ||| b) &&& m = a &&& m ||| b &&& m := by
  ext k hk
  simp [Bool.and_or_distrib_right]

/-- A field under a mask: the field's bits under the mask's bits at its place. -/
theorem field_and {n : Nat} (lo : Nat) (v : BitVec n) (m : Word) :
    field lo v &&& m = field lo (v &&& m.extractLsb' lo n) := by
  unfold field
  ext k hk
  simp only [← BitVec.getLsbD_eq_getElem, BitVec.getLsbD_and, BitVec.getLsbD_shiftLeft, BitVec.getLsbD_setWidth]
  by_cases h : k < lo
  · simp [h]
  · by_cases hv : k - lo < n
    · simp [h, hv, show lo + (k - lo) = k by omega, Bool.and_assoc]
    · simp [BitVec.getLsbD_of_ge v (k - lo) (by omega)]

theorem extract_ones {n : Nat} (v : BitVec n) (m : BitVec n) (h : m = BitVec.allOnes n) : v &&& m = v := by
  rw [h, BitVec.and_allOnes]

theorem field_zero {n : Nat} (lo : Nat) : field lo (0#n) = 0#32 := by simp [field]

theorem packLoad_mask (m : BitVec 2) (d : Reg) (i : Imm) :
    packLoad m d i &&& 0xF0000000 = field 30 Family.load.code ||| field 28 m := by
  unfold packLoad
  simp only [or_and, field_and]
  rw [extract_ones _ ((0xF0000000 : Word).extractLsb' 30 2) rfl,
    extract_ones _ ((0xF0000000 : Word).extractLsb' 28 2) rfl,
    show (0xF0000000 : Word).extractLsb' 24 2 = 0 from rfl,
    show (0xF0000000 : Word).extractLsb' 0 24 = 0 from rfl]
  simp [field_zero]

theorem packStore_mask (m s d : BitVec 2) (i : Imm) :
    packStore m s d i &&& 0xF0000000 = field 30 Family.store.code ||| field 28 m := by
  unfold packStore
  simp only [or_and, field_and]
  rw [extract_ones _ ((0xF0000000 : Word).extractLsb' 30 2) rfl,
    extract_ones _ ((0xF0000000 : Word).extractLsb' 28 2) rfl,
    show (0xF0000000 : Word).extractLsb' 26 2 = 0 from rfl,
    show (0xF0000000 : Word).extractLsb' 24 2 = 0 from rfl,
    show (0xF0000000 : Word).extractLsb' 0 24 = 0 from rfl]
  simp [field_zero]

theorem packCompute_mask (mi : BitVec 1) (f : BitVec 3) (d : Reg) (i : Imm) :
    packCompute mi f d i &&& 0xFC000000 = field 30 Family.compute.code ||| field 29 mi ||| field 26 f := by
  unfold packCompute
  simp only [or_and, field_and]
  rw [extract_ones _ ((0xFC000000 : Word).extractLsb' 30 2) rfl,
    extract_ones _ ((0xFC000000 : Word).extractLsb' 29 1) rfl,
    extract_ones _ ((0xFC000000 : Word).extractLsb' 26 3) rfl,
    show (0xFC000000 : Word).extractLsb' 24 2 = 0 from rfl,
    show (0xFC000000 : Word).extractLsb' 0 24 = 0 from rfl]
  simp [field_zero]

theorem packJump_mask (c : BitVec 3) (i : Imm) :
    packJump c i &&& 0xF8000000 = field 30 Family.jump.code ||| field 27 c := by
  unfold packJump
  simp only [or_and, field_and]
  rw [extract_ones _ ((0xF8000000 : Word).extractLsb' 30 2) rfl,
    extract_ones _ ((0xF8000000 : Word).extractLsb' 27 3) rfl,
    show (0xF8000000 : Word).extractLsb' 0 24 = 0 from rfl]
  simp [field_zero]

theorem packLoad_dontCare (m : BitVec 2) (d : Reg) (i : Imm) :
    packLoad m d i &&& 0x0C000000 = 0 := by
  unfold packLoad
  simp only [or_and, field_and]
  rw [show (0x0C000000 : Word).extractLsb' 30 2 = 0 from rfl,
    show (0x0C000000 : Word).extractLsb' 28 2 = 0 from rfl,
    show (0x0C000000 : Word).extractLsb' 24 2 = 0 from rfl,
    show (0x0C000000 : Word).extractLsb' 0 24 = 0 from rfl]
  simp [field_zero]

theorem packStore_dontCare (m : BitVec 2) (i : Imm) :
    packStore m 0 0 i &&& 0x0F000000 = 0 := by
  unfold packStore
  simp only [or_and, field_and]
  rw [show (0x0F000000 : Word).extractLsb' 30 2 = 0 from rfl,
    show (0x0F000000 : Word).extractLsb' 28 2 = 0 from rfl,
    extract_ones _ ((0x0F000000 : Word).extractLsb' 26 2) rfl,
    extract_ones _ ((0x0F000000 : Word).extractLsb' 24 2) rfl,
    show (0x0F000000 : Word).extractLsb' 0 24 = 0 from rfl]
  simp [field_zero]

theorem packMove_dontCare (m s d : BitVec 2) :
    packStore m s d 0 &&& 0x00FFFFFF = 0 := by
  unfold packStore
  simp only [or_and, field_and]
  rw [show (0x00FFFFFF : Word).extractLsb' 30 2 = 0 from rfl,
    show (0x00FFFFFF : Word).extractLsb' 28 2 = 0 from rfl,
    show (0x00FFFFFF : Word).extractLsb' 26 2 = 0 from rfl,
    show (0x00FFFFFF : Word).extractLsb' 24 2 = 0 from rfl,
    extract_ones _ ((0x00FFFFFF : Word).extractLsb' 0 24) rfl]
  simp [field_zero]

theorem packJump_dontCare (c : BitVec 3) (i : Imm) :
    packJump c i &&& 0x07000000 = 0 := by
  unfold packJump
  simp only [or_and, field_and]
  rw [show (0x07000000 : Word).extractLsb' 30 2 = 0 from rfl,
    show (0x07000000 : Word).extractLsb' 27 3 = 0 from rfl,
    show (0x07000000 : Word).extractLsb' 0 24 = 0 from rfl]
  simp [field_zero]

namespace EncodedRow

/-- The encoded word is in its row of the opcode table and is canonical. -/
def Statement (ins : Instr) : Prop :=
  encode ins &&& rowMask ins.opcode = rowMatch ins.opcode ∧ encode ins &&& ins.opcode.dontCare = 0

theorem load (d : Reg) (i : Imm) : Statement (.load d i) :=
  ⟨(packLoad_mask _ _ _).trans rfl, packLoad_dontCare _ _ _⟩

theorem loadin1 (d : Reg) (i : Imm) : Statement (.loadin1 d i) :=
  ⟨(packLoad_mask _ _ _).trans rfl, packLoad_dontCare _ _ _⟩

theorem loadin2 (d : Reg) (i : Imm) : Statement (.loadin2 d i) :=
  ⟨(packLoad_mask _ _ _).trans rfl, packLoad_dontCare _ _ _⟩

theorem loadi (d : Reg) (i : Imm) : Statement (.loadi d i) :=
  ⟨(packLoad_mask _ _ _).trans rfl, packLoad_dontCare _ _ _⟩

theorem store (i : Imm) : Statement (.store i) :=
  ⟨(packStore_mask _ _ _ _).trans rfl, packStore_dontCare _ _⟩

theorem storein1 (i : Imm) : Statement (.storein1 i) :=
  ⟨(packStore_mask _ _ _ _).trans rfl, packStore_dontCare _ _⟩

theorem storein2 (i : Imm) : Statement (.storein2 i) :=
  ⟨(packStore_mask _ _ _ _).trans rfl, packStore_dontCare _ _⟩

theorem move (s d : Reg) : Statement (.move s d) :=
  ⟨(packStore_mask _ _ _ _).trans rfl, packMove_dontCare _ _ _⟩

theorem subi (d : Reg) (i : Imm) : Statement (.subi d i) :=
  ⟨(packCompute_mask _ _ _ _).trans rfl, BitVec.and_zero⟩

theorem addi (d : Reg) (i : Imm) : Statement (.addi d i) :=
  ⟨(packCompute_mask _ _ _ _).trans rfl, BitVec.and_zero⟩

theorem oplusi (d : Reg) (i : Imm) : Statement (.oplusi d i) :=
  ⟨(packCompute_mask _ _ _ _).trans rfl, BitVec.and_zero⟩

theorem ori (d : Reg) (i : Imm) : Statement (.ori d i) :=
  ⟨(packCompute_mask _ _ _ _).trans rfl, BitVec.and_zero⟩

theorem andi (d : Reg) (i : Imm) : Statement (.andi d i) :=
  ⟨(packCompute_mask _ _ _ _).trans rfl, BitVec.and_zero⟩

theorem sub (d : Reg) (i : Imm) : Statement (.sub d i) :=
  ⟨(packCompute_mask _ _ _ _).trans rfl, BitVec.and_zero⟩

theorem add (d : Reg) (i : Imm) : Statement (.add d i) :=
  ⟨(packCompute_mask _ _ _ _).trans rfl, BitVec.and_zero⟩

theorem oplus (d : Reg) (i : Imm) : Statement (.oplus d i) :=
  ⟨(packCompute_mask _ _ _ _).trans rfl, BitVec.and_zero⟩

theorem or (d : Reg) (i : Imm) : Statement (.or d i) :=
  ⟨(packCompute_mask _ _ _ _).trans rfl, BitVec.and_zero⟩

theorem and (d : Reg) (i : Imm) : Statement (.and d i) :=
  ⟨(packCompute_mask _ _ _ _).trans rfl, BitVec.and_zero⟩

theorem nop : Statement (.nop) :=
  ⟨rfl, rfl⟩

theorem jump (i : Imm) : Statement (.jump i) :=
  ⟨(packJump_mask _ _).trans rfl, packJump_dontCare _ _⟩

theorem jumpgt (i : Imm) : Statement (.jumpgt i) :=
  ⟨(packJump_mask _ _).trans rfl, packJump_dontCare _ _⟩

theorem jumpeq (i : Imm) : Statement (.jumpeq i) :=
  ⟨(packJump_mask _ _).trans rfl, packJump_dontCare _ _⟩

theorem jumpge (i : Imm) : Statement (.jumpge i) :=
  ⟨(packJump_mask _ _).trans rfl, packJump_dontCare _ _⟩

theorem jumplt (i : Imm) : Statement (.jumplt i) :=
  ⟨(packJump_mask _ _).trans rfl, packJump_dontCare _ _⟩

theorem jumpne (i : Imm) : Statement (.jumpne i) :=
  ⟨(packJump_mask _ _).trans rfl, packJump_dontCare _ _⟩

theorem jumple (i : Imm) : Statement (.jumple i) :=
  ⟨(packJump_mask _ _).trans rfl, packJump_dontCare _ _⟩

end EncodedRow

end Sys2Proof.Laws
end

