-- ==== Sys2Proof/Laws/Text.lean ====
section
/-! SUPPORT. The text forms: what a numeral reads back as, what characters a rendering holds, and how tokens are cut. -/

namespace Sys2Proof.Machine

/-! ### Numerals -/

/-- A digit reads back as its value. -/
theorem digitValue_digitChar {n : Nat} (h : n < 16) : digitValue (digitChar n) = some n := by
  revert h; revert n; decide

/-- A character that can stand inside a token of a rendering: none that a line or a token ends with, and no `x`. -/
def plain (c : Char) : Bool := c != '\r' && c != '\n' && c != ';' && !isBlank c

/-- A digit is a plain character, and a decimal digit is neither `x` nor a minus sign. -/
theorem plain_digitChar {n : Nat} (h : n < 16) :
    plain (digitChar n) = true ∧ digitChar n ≠ '-' ∧ digitChar n ≠ 'x' := by
  revert h; revert n; decide

theorem readDigits_append (base : Nat) (xs ys : Text) :
    ∀ n, readDigits base (xs ++ ys) n = (readDigits base xs n).bind (readDigits base ys) := by
  induction xs with
  | nil => intro n; rfl
  | cons c xs ih =>
    intro n
    simp only [List.cons_append, readDigits]
    cases digitValue c with
    | none => rfl
    | some v => by_cases hv : v < base <;> simp [hv, ih]

/-- The digits of a number that fits read back as the number. -/
theorem readDigits_digits {base : Nat} (h2 : 2 ≤ base) (h16 : base ≤ 16) :
    ∀ fuel n, n < base ^ (fuel + 1) → readDigits base (digits base fuel n) 0 = some n := by
  have one : ∀ m k, m < base → readDigits base [digitChar m] k = some (k * base + m) := by
    intro m k hm
    simp [readDigits, digitValue_digitChar (show m < 16 by omega), hm]
  intro fuel
  induction fuel with
  | zero =>
    intro n hn
    have hn' : n < base := by simpa using hn
    rw [digits, Nat.mod_eq_of_lt hn', one n 0 hn']
    simp
  | succ fuel ih =>
    intro n hn
    rw [digits]
    split
    · next h => rw [one n 0 h]; simp
    · rw [readDigits_append, ih (n / base) (Nat.div_lt_of_lt_mul (by rwa [Nat.pow_succ, Nat.mul_comm] at hn)),
        Option.bind_some, one _ _ (Nat.mod_lt _ (by omega)), Nat.div_add_mod']

/-- Every character of a numeral is a digit of its base. -/
theorem mem_digits {base : Nat} (h : 0 < base) :
    ∀ fuel n c, c ∈ digits base fuel n → ∃ m, m < base ∧ c = digitChar m := by
  intro fuel
  induction fuel with
  | zero => intro n c hc; exact ⟨n % base, Nat.mod_lt _ h, by simpa [digits] using hc⟩
  | succ fuel ih =>
    intro n c hc
    rw [digits] at hc
    split at hc
    · next hn => exact ⟨n, hn, by simpa using hc⟩
    · rcases List.mem_append.1 hc with hc | hc
      · exact ih _ _ hc
      · exact ⟨n % base, Nat.mod_lt _ h, by simpa using hc⟩

theorem digits_ne_nil (base fuel n : Nat) : digits base fuel n ≠ [] := by
  cases fuel with
  | zero => simp [digits]
  | succ fuel => rw [digits]; split <;> simp

/-- A number below `base ^ k` has at most `k` digits. -/
theorem length_digits {base : Nat} :
    ∀ fuel n k, n < base ^ (k + 1) → (digits base fuel n).length ≤ k + 1 := by
  intro fuel
  induction fuel with
  | zero => intro n k _; simp [digits]
  | succ fuel ih =>
    intro n k hn
    rw [digits]
    split
    · simp
    · next hb =>
      cases k with
      | zero => simp at hn; omega
      | succ k =>
        have := ih (n / base) k (Nat.div_lt_of_lt_mul (by rwa [Nat.pow_succ, Nat.mul_comm] at hn))
        simp only [List.length_append, List.length_cons, List.length_nil]
        omega

/-- A numeral that holds no `x` is read in decimal. -/
theorem readNumeral_of_no_x {t : Text} (h : t ≠ []) (hx : ∀ c ∈ t, c ≠ 'x') : readNumeral t = readDigits 10 t 0 := by
  rcases t with _ | ⟨c, cs⟩
  · exact absurd rfl h
  · simp only [readNumeral]
    split
    · next hc =>
      subst hc
      rcases cs with _ | ⟨d, ds⟩
      · rfl
      · have hd := hx d (by simp)
        simp only [hd, if_false]
        rfl
    · rfl

theorem readNumeral_decimal {n : Nat} (h : n < 10 ^ 9) : readNumeral (decimal n) = some n := by
  rw [readNumeral_of_no_x (t := decimal n) (digits_ne_nil _ _ _)]
  · exact readDigits_digits (by omega) (by omega) 8 n h
  · intro c hc
    obtain ⟨m, hm, rfl⟩ := mem_digits (by omega) _ _ _ hc
    exact (plain_digitChar (by omega)).2.2

theorem readNumeral_hexadecimal {n : Nat} (h : n < 16 ^ 9) : readNumeral (hexadecimal n) = some n := by
  simp only [readNumeral, hexadecimal, if_true, digits_ne_nil, if_false]
  exact readDigits_digits (by omega) (by omega) 8 n h

/-! ### Literals -/

theorem readLiteral_of_no_minus {t : Text} {n : Nat} (h : readNumeral t = some n) (hm : ∀ c ∈ t.head?, c ≠ '-') :
    readLiteral t = some { negative := false, magnitude := n } := by
  rcases t with _ | ⟨c, cs⟩
  · simp [readNumeral] at h
  · have hc : c ≠ '-' := hm c (by simp)
    simp only [readLiteral, hc, if_false, h, Option.map_some]

theorem decimal_head {n : Nat} : ∀ c ∈ (decimal n).head?, c ≠ '-' := by
  intro c hc
  obtain ⟨m, hm, rfl⟩ := mem_digits (by omega) _ _ _ (List.mem_of_mem_head? hc)
  exact (plain_digitChar (by omega)).2.1

theorem readLiteral_decimal {n : Nat} (h : n < 10 ^ 9) :
    readLiteral (decimal n) = some { negative := false, magnitude := n } :=
  readLiteral_of_no_minus (readNumeral_decimal h) decimal_head

theorem readLiteral_hexadecimal {n : Nat} (h : n < 16 ^ 9) :
    readLiteral (hexadecimal n) = some { negative := false, magnitude := n } :=
  readLiteral_of_no_minus (readNumeral_hexadecimal h) (by intro c hc; simp [hexadecimal] at hc; subst hc; decide)

/-- A signed decimal reads back as the literal of its number. -/
theorem readLiteral_signedDecimal {v : Int} (h : v.natAbs < 10 ^ 9) :
    readLiteral (signedDecimal v) = some { negative := decide (v < 0), magnitude := v.natAbs } := by
  unfold signedDecimal
  split
  · next hv => simp [readLiteral, readNumeral_decimal h, hv]
  · next hv => simp [readLiteral_decimal h, hv]

/-! ### Tokens -/

theorem firstToken_append {t : Text} (h : ∀ c ∈ t, plain c = true) (cs : Text) :
    firstToken (t ++ cs) = (t ++ (firstToken cs).1, (firstToken cs).2) := by
  induction t with
  | nil => rfl
  | cons c t ih =>
    have hb : isBlank c = false := by
      have := h c (by simp)
      simp only [plain, Bool.and_eq_true, Bool.not_eq_true'] at this
      exact this.2
    simp [firstToken, ih (fun d hd => h d (by simp [hd])), hb]

/-- A text without white space is one token. -/
theorem tokens_plain {t : Text} (h : ∀ c ∈ t, plain c = true) (hn : t ≠ []) : tokens t = [t] := by
  have := firstToken_append h []
  simp only [List.append_nil] at this
  simp [tokens, this, hn, firstToken]

/-- A text without white space before a space is the first token. -/
theorem tokens_plain_space {t : Text} (h : ∀ c ∈ t, plain c = true) (hn : t ≠ []) (cs : Text) :
    tokens (t ++ ' ' :: cs) = t :: tokens cs := by
  have hs : isBlank ' ' = true := rfl
  simp [tokens, firstToken_append h, hn, firstToken, hs]

/-! ### Lines -/

theorem uncomment_plain {t : Text} (h : ∀ c ∈ t, c ≠ ';') : uncomment t = t := by
  unfold uncomment
  rw [List.takeWhile_eq_self_iff]
  intro c hc
  simpa using h c hc

theorem joinCrLf_plain {t : Text} (h : ∀ c ∈ t, c ≠ '\r') : joinCrLf t = t := by
  induction t with
  | nil => rfl
  | cons c t ih =>
    rw [joinCrLf, if_neg (fun hc => h c (by simp) hc.1), ih fun d hd => h d (by simp [hd])]

theorem splitLines_plain {t : Text} (h : ∀ c ∈ t, c ≠ '\n') : splitLines t = [t] := by
  induction t with
  | nil => rfl
  | cons c t ih =>
    rw [splitLines, if_neg (h c (by simp)), ih fun d hd => h d (by simp [hd])]

/-! ### Names -/

theorem opcodeNamed_mnemonic (op : Opcode) : opcodeNamed (mnemonic op) = some op := by
  cases op <;> rfl

theorem regNamed_regName (r : Reg) : regNamed (regName r) = some r := by
  cases r <;> rfl

theorem plain_mnemonic (op : Opcode) : mnemonic op ≠ [] ∧ ∀ c ∈ mnemonic op, plain c = true := by
  refine ⟨by cases op <;> simp [mnemonic], List.all_eq_true.1 ?_⟩
  cases op <;> rfl

theorem plain_regName (r : Reg) : regName r ≠ [] ∧ ∀ c ∈ regName r, plain c = true := by
  refine ⟨by cases r <;> simp [regName], List.all_eq_true.1 ?_⟩
  cases r <;> rfl

/-! ### Operands -/

/-- A register name in a register position is taken. -/
theorem takeReg_regName (r : Reg) (ts : List Text) : takeReg true (regName r :: ts) = .ok (some r, ts) := by
  simp [takeReg, regNamed_regName]

/-- No register is taken where the opcode carries none. -/
theorem takeReg_none (ts : List Text) : takeReg false ts = .ok (none, ts) := rfl

/-- A literal that the opcode accepts is taken. -/
theorem takeImm_literal {op : Opcode} {t : Text} {l : Literal} (h : op.hasImm = true) (hl : readLiteral t = some l)
    (hf : l.fault op = none) (ts : List Text) : takeImm op (t :: ts) = .ok (some l, ts) := by
  simp [takeImm, h, hl, hf]

/-- No immediate is taken where the opcode carries none. -/
theorem takeImm_none {op : Opcode} (h : op.hasImm = false) (ts : List Text) : takeImm op ts = .ok (none, ts) := by
  simp [takeImm, h]

end Sys2Proof.Machine
end

