-- ==== Sys2Proof/Tests/Slice0.lean ====
section
/-! SUPPORT. Tests. Expected values are the spec's: `t3`, `t4`, `t5`, `t7` name the sections of spec/95_test_vectors.md they
are taken from. A `witness_<Name>` meets all hypotheses of the obligation `<Name>` together, at boundary values. -/

namespace Sys2Proof.Tests

open Sys2Proof.Machine

/-! ### Well-formedness: an ill-formed term for each check -/

theorem test_missing_operand_refused :
    SourceInstr.check { opcode := .loadi, dst := some .acc } = some .missingOperand ∧
    SourceInstr.check { opcode := .move, src := some .acc } = some .missingOperand := by decide

theorem test_extra_operand_refused :
    SourceInstr.check { opcode := .nop, imm := some ⟨false, 5⟩ } = some .extraOperand ∧
    SourceInstr.check { opcode := .store, dst := some .acc, imm := some ⟨false, 0⟩ } = some .extraOperand := by decide

theorem test_sign_refused :
    SourceInstr.check { opcode := .loadi, dst := some .acc, imm := some ⟨true, 1⟩ } = some .signNotAccepted := by decide

theorem test_range_refused :
    SourceInstr.check { opcode := .addi, dst := some .acc, imm := some ⟨true, 8388609⟩ } = some .outOfRange ∧
    SourceInstr.check { opcode := .loadi, dst := some .acc, imm := some ⟨false, 0x1000000⟩ } = some .outOfRange := by decide

theorem test_wellFormed_accepted :
    SourceInstr.wellFormed { opcode := .addi, dst := some .acc, imm := some ⟨true, 0x800000⟩ } = true ∧
    SourceInstr.wellFormed { opcode := .nop } = true := by decide

/-! ### Decoding: words written out field by field from R62 to R70 -/

/-- Load words: family 01, M, S, D, i. -/
def loadWord (m s d : BitVec 2) (i : BitVec 24) : Word := 0b01#2 ++ m ++ s ++ d ++ i

/-- Store words: family 10, M, S, D, i. -/
def storeWord (m s d : BitVec 2) (i : BitVec 24) : Word := 0b10#2 ++ m ++ s ++ d ++ i

/-- Compute words: family 00, MI, F, D, i. -/
def computeWord (mi : BitVec 1) (f : BitVec 3) (d : BitVec 2) (i : BitVec 24) : Word := 0b00#2 ++ mi ++ f ++ d ++ i

/-- Jump words: family 11, C, three unused bits, i. -/
def jumpWord (c u : BitVec 3) (i : BitVec 24) : Word := 0b11#2 ++ c ++ u ++ i

theorem test_decode_load_family :
    decode (loadWord 0b00 0b00 0b11 1) = .legal (.load .acc 1) ∧
    decode (loadWord 0b01 0b10 0b00 2) = .legal (.loadin1 .pc 2) ∧
    decode (loadWord 0b10 0b00 0b01 3) = .legal (.loadin2 .in1 3) ∧
    decode (loadWord 0b11 0b11 0b10 0xFFFFFF) = .legal (.loadi .in2 0xFFFFFF) := by decide

theorem test_decode_store_family :
    decode (storeWord 0b00 0b11 0b11 10) = .legal (.store 10) ∧
    decode (storeWord 0b01 0b00 0b00 11) = .legal (.storein1 11) ∧
    decode (storeWord 0b10 0b01 0b00 0xFFFFFF) = .legal (.storein2 0xFFFFFF) ∧
    decode (storeWord 0b11 0b01 0b11 0xABCDEF) = .legal (.move .in1 .acc) := by decide

theorem test_decode_compute_family :
    decode (computeWord 0 0b010 0b11 1) = .legal (.subi .acc 1) ∧
    decode (computeWord 0 0b011 0b10 2) = .legal (.addi .in2 2) ∧
    decode (computeWord 0 0b100 0b01 3) = .legal (.oplusi .in1 3) ∧
    decode (computeWord 0 0b101 0b00 4) = .legal (.ori .pc 4) ∧
    decode (computeWord 0 0b110 0b11 5) = .legal (.andi .acc 5) ∧
    decode (computeWord 1 0b010 0b11 6) = .legal (.sub .acc 6) ∧
    decode (computeWord 1 0b011 0b10 7) = .legal (.add .in2 7) ∧
    decode (computeWord 1 0b100 0b01 8) = .legal (.oplus .in1 8) ∧
    decode (computeWord 1 0b101 0b00 9) = .legal (.or .pc 9) ∧
    decode (computeWord 1 0b110 0b11 10) = .legal (.and .acc 10) := by decide

theorem test_decode_jump_family :
    decode (jumpWord 0b000 0b111 0xFFFFFF) = .legal .nop ∧
    decode (jumpWord 0b001 0b000 1) = .legal (.jumpgt 1) ∧
    decode (jumpWord 0b010 0b001 2) = .legal (.jumpeq 2) ∧
    decode (jumpWord 0b011 0b010 3) = .legal (.jumpge 3) ∧
    decode (jumpWord 0b100 0b011 4) = .legal (.jumplt 4) ∧
    decode (jumpWord 0b101 0b100 5) = .legal (.jumpne 5) ∧
    decode (jumpWord 0b110 0b101 6) = .legal (.jumple 6) ∧
    decode (jumpWord 0b111 0b110 0xFFFFFF) = .legal (.jump 0xFFFFFF) := by decide

/-- The six reserved Compute patterns of R72, words of t3. -/
theorem test_decode_illegal :
    decode 0x00000000 = .illegal ∧ decode 0x04FFFFFF = .illegal ∧ decode 0x1C000001 = .illegal ∧
    decode 0x20000000 = .illegal ∧ decode 0x24123456 = .illegal ∧ decode 0x3FFFFFFF = .illegal := by decide

/-- Canonical words (t3), bytes as R41 has them (S11), and the host's view of a table word. -/
theorem test_encode_words :
    encode (.addi .acc 5) = 0x0F000005 ∧ encode (.load .acc 1) = 0x43000001 ∧ encode (.store 10) = 0x8000000A ∧
    encode (.move .in1 .acc) = 0xB7000000 ∧ encode .nop = 0xC0000000 ∧ encode (.jump 0xFFFFFF) = 0xF8FFFFFF ∧
    encodeBytes (.loadi .acc 0x2A) = [0x2A, 0x00, 0x00, 0x73] ∧
    decodeTableWord 32 0x7300002A = some (.loadi .acc 0x2A) ∧ decodeTableWord 32 0 = none := by decide

/-! ### One step of each instruction (t5) -/

/-- A running state about to execute the word `w` at index `p`, a NOP after it. -/
def poised (p : Nat) (w : Word) : State :=
  { State.reset with pc := BitVec.ofNat 32 p, code := List.replicate p 0xC0000000#32 ++ [w, 0xC0000000#32] }

/-- A state with the word `v` stored at the data address `a`. -/
def holding (a v : Word) (s : State) : State := memWrite a v s

/-- The state after one step. -/
def after (s : State) : Option State :=
  match step s with
  | .next t => some t
  | .fault _ => none
  | .refused _ => none

theorem test_LOAD : (after (holding 1 15 (poised 0 0x43000001))).map (fun t => (t.acc, t.pc, t.anomalies))
    = some (15, 1, []) := by decide

theorem test_LOAD_self_loop : (after (holding 0 2 (poised 2 0x40000000))).map (fun t => (t.pc, t.status))
    = some (2, .halted .selfLoop) := by decide

theorem test_LOADIN1_wraps : (after (holding 0 7 { poised 0 0x53000001 with in1 := 0xFFFFFFFF })).map (fun t => (t.acc, t.pc))
    = some (7, 1) := by decide

theorem test_LOADIN1_own_base : (after (holding 5 9 { poised 0 0x51000000 with in1 := 5 })).map (fun t => t.in1)
    = some 9 := by decide

theorem test_LOADIN2 : (after (holding 103 7 { poised 0 0x61000003 with in2 := 100 })).map (fun t => (t.in1, t.in2))
    = some (7, 100) := by decide

theorem test_LOADI : (after (poised 0 0x73FFFFFF)).map (fun t => (t.acc, t.anomalies)) = some (0x00FFFFFF, []) := by decide

theorem test_LOADI_PC : (after (poised 0 0x70000003)).map (fun t => (t.pc, t.status)) = some (3, .running) := by decide

theorem test_STORE : (after { poised 1 0x80000000 with acc := 0x2A }).map (fun t => (t.mem, t.valid, t.pc))
    = some ([(0, 0x2A)], [0], 2) := by decide

theorem test_STOREIN1_wraps : (after { poised 0 0x90000001 with in1 := 0xFFFFFFFF, acc := 4 }).map
    (fun t => (t.mem.readWord 0, t.valid, t.in1)) = some (4, [0], 0xFFFFFFFF) := by decide

theorem test_STOREIN2 : (after { poised 0 0xA0000000 with in2 := 100, acc := 10 }).map (fun t => (t.mem.readWord 100, t.valid))
    = some (10, [100]) := by decide

theorem test_STOREIN2_capacity :
    (after { poised 0 0xA0000000 with in2 := 100, params := { addrLimit := some 100 } }).map (fun t => (t.status, t.valid, t.steps))
    = some (.fatal (.capacity 0 100), [], 0) := by decide

theorem test_MOVE_from_PC : (after (poised 7 0xB3000000)).map (fun t => (t.acc, t.pc)) = some (7, 8) := by decide

theorem test_MOVE_to_PC : (after { poised 1 0xBC000000 with acc := 5 }).map (fun t => (t.pc, t.status))
    = some (5, .running) := by decide

theorem test_SUBI_wraps : (after (poised 0 0x0B000001)).map (fun t => t.acc) = some 0xFFFFFFFF := by decide

theorem test_SUBI_sign : (after (poised 0 0x0B800000)).map (fun t => t.acc) = some 0x00800000 := by decide

theorem test_ADDI_sign : (after (poised 0 0x0FFFFFFF)).map (fun t => t.acc) = some 0xFFFFFFFF := by decide

theorem test_ADDI_PC : (after (poised 2 0x0C000003)).map (fun t => (t.pc, t.status)) = some (5, .running) := by decide

theorem test_OPLUSI : (after { poised 0 0x13FFFFFF with acc := 0xFF000000 }).map (fun t => t.acc)
    = some 0xFFFFFFFF := by decide

theorem test_ORI : (after { poised 0 0x16000000 with in2 := 0x12345678 }).map (fun t => t.in2)
    = some 0x12345678 := by decide

theorem test_ANDI : (after { poised 0 0x1BFFFFFF with acc := 0xFFFFFFFF }).map (fun t => t.acc)
    = some 0x00FFFFFF := by decide

theorem test_SUB_top_of_memory : (after (holding 0xFFFFFFFF 1 { poised 0 0x2BFFFFFF with acc := 1 })).map (fun t => t.acc)
    = some 0 := by decide

theorem test_SUB : (after (holding 0 3 { poised 0 0x2B000000 with acc := 10 })).map (fun t => t.acc) = some 7 := by decide

theorem test_ADD_signed_address : (after (holding 0xFF800000 2 { poised 0 0x2F800000 with acc := 1 })).map (fun t => t.acc)
    = some 3 := by decide

theorem test_OPLUS_uninitialized : (after { poised 0 0x33000005 with acc := 0x1234 }).map (fun t => (t.acc, t.anomalies))
    = some (0x1234, [⟨0, 5⟩]) := by decide

theorem test_OR : (after (holding 4 0x0F0F0F0F { poised 0 0x37000004 with acc := 0xFFFF0000 })).map (fun t => t.acc)
    = some 0xFFFF0F0F := by decide

theorem test_AND_uninitialized : (after { poised 0 0x3B000005 with acc := 0xFFFFFFFF }).map (fun t => (t.acc, t.anomalies))
    = some (0, [⟨0, 5⟩]) := by decide

theorem test_AND_stop :
    (after { poised 0 0x3B000005 with acc := 0xFFFFFFFF, params := { uninitPolicy := .stop } }).map (fun t => (t.acc, t.status))
    = some (0xFFFFFFFF, .fatal (.uninitStop 0 5)) := by decide

theorem test_NOP : (after (poised 4 0xC0000000)).map (fun t => (t.pc, t.status)) = some (5, .running) := by decide

theorem test_JUMP_self_loop : (after (poised 0 0xF8000000)).map (fun t => (t.pc, t.steps, t.status))
    = some (0, 1, .halted .selfLoop) := by decide

theorem test_JUMP_back_wraps : (after (poised 0 0xF8FFFFFF)).map (fun t => (t.pc, t.status))
    = some (0xFFFFFFFF, .running) := by decide

theorem test_JUMPGT : (after { poised 9 0xC8FFFFFA with acc := 4 }).map (fun t => t.pc) = some 3 := by decide

theorem test_JUMPGT_signed : (after { poised 0 0xC8000002 with acc := 0x80000000 }).map (fun t => t.pc) = some 1 := by decide

theorem test_JUMPEQ : (after (poised 2 0xD0000003)).map (fun t => t.pc) = some 5 := by decide

theorem test_JUMPGE_not_taken : (after { poised 2 0xD8000003 with acc := 0xFFFFFFFF }).map (fun t => t.pc)
    = some 3 := by decide

theorem test_JUMPLT : (after { poised 8 0xE0FFFFFA with acc := 0xFFFFFFFE }).map (fun t => t.pc) = some 2 := by decide

theorem test_JUMPNE : (after { poised 1 0xE8FFFFFF with acc := 1 }).map (fun t => t.pc) = some 0 := by decide

theorem test_JUMPNE_zero_not_taken : (after (poised 1 0xE8000000)).map (fun t => (t.pc, t.status))
    = some (2, .running) := by decide

theorem test_JUMPLE : (after { poised 0 0xF000000A with acc := 0x80000000 }).map (fun t => t.pc) = some 10 := by decide

theorem test_JUMPLE_not_taken : (after { poised 0 0xF000000A with acc := 1 }).map (fun t => t.pc) = some 1 := by decide

/-! ### Datapath (t4) -/

theorem test_alu :
    alu .add 0x80000000 0xFFFFFFFF = 0x7FFFFFFF ∧ alu .sub 0x12345678 0x0F0F0F0F = 0x03254769 ∧
    alu .xor 0xFFFF0000 0x00FFFF00 = 0xFF00FF00 ∧ alu .or 0x12345678 0x0F0F0F0F = 0x1F3F5F7F ∧
    alu .and 0x12345678 0x0F0F0F0F = 0x02040608 := by decide

theorem test_comparator :
    ([Cond.never, .gt, .eq, .ge, .lt, .ne, .le, .always].map fun c => taken c 0x80000000)
      = [false, false, false, false, true, true, true, true] ∧
    ([Cond.never, .gt, .eq, .ge, .lt, .ne, .le, .always].map fun c => taken c 0)
      = [false, false, true, true, false, false, true, true] := by decide

theorem test_addresses :
    eaDirect 0x800000 = 0x00800000 ∧ eaIndexed 0xFFFFFFFF 1 = 0 ∧ eaIndexed 0x01000000 0xFFFFFF = 0x01FFFFFF ∧
    eaSigned 0x800000 = 0xFF800000 ∧ eaSigned 0x7FFFFF = 0x007FFFFF := by decide

/-! ### Controller, launch (t5.5) -/

theorem test_end_before_budget : (after { State.reset with params := { stepLimit := some 0 } }).map (fun t => t.status)
    = some (.halted .endOfCode) := by decide

theorem test_budget_zero : (after { poised 0 0xC0000000 with params := { stepLimit := some 0 } }).map (fun t => (t.status, t.steps))
    = some (.halted .stepLimit, 0) := by decide

theorem test_beyond : (after { poised 0 0xC0000000 with pc := 5 }).map (fun t => (t.status, t.beyond, t.pc))
    = some (.halted .beyond, true, 5) := by decide

theorem test_illegal : (after (poised 0 0x00000000)).map (fun t => (t.status, t.pc, t.steps))
    = some (.fatal (.illegal 0 0), 0, 0) := by decide

theorem test_ended_run_has_no_step : step { poised 0 0xC0000000 with status := .halted .endOfCode } = .fault .runEnded := by rfl

theorem test_withFetchWord : (after (State.reset.withFetchWord 32 0x7300002A)).map (fun t => (t.acc, t.pc))
    = some (0x2A, 1) := by decide

/-- The data load of program P3: three words from address 0, valid. -/
theorem test_launch_data :
    (launch [0xC0000000] [10, 20, 30] {}).toOption.map (fun s => (s.mem, s.valid, s.pc))
    = some ([(0, 10), (4, 20), (8, 30)], [0, 1, 2], 0) := by decide

theorem test_launch_truncated :
    (launchImages [0, 0, 0, 0xC0, 1] [] {}).toOption = none ∧ (launchImages [] [1, 2, 3] {}).toOption = none ∧
    (launchImages [5, 0, 0, 0x0F] [] {}).toOption.map (fun s => s.code) = some [0x0F000005] := by decide

/-! ### Text (t3, t7) -/

theorem test_disassemble :
    disassemble 0x0BFFFFFF = some "SUBI ACC -1".toList ∧ disassemble 0x1B0F00FF = some "ANDI ACC 0xf00ff".toList ∧
    disassemble 0x73FFFFFF = some "LOADI ACC 16777215".toList ∧ disassemble 0xB7ABCDEF = some "MOVE IN1 ACC".toList ∧
    disassemble 0xE8800000 = some "JUMPNE -8388608".toList ∧ disassemble 0xC7FFFFFF = some "NOP".toList ∧
    disassemble 0x3B000004 = some "AND ACC 0x4".toList ∧ disassemble 0 = none := by decide

theorem test_reportLine :
    reportLine 12 1 0x80000000 = some "     STORE 0 ; 00000001 80000000".toList := by decide

theorem test_assemble_words :
    assemble "ADDI ACC 5".toList = .ok [0x0F000005] ∧ assemble "ADDI ACC 0xffffff".toList = .ok [0x0FFFFFFF] ∧
    assemble "ADDI ACC -0x800000".toList = .ok [0x0F800000] ∧ assemble "MOVE IN1 ACC".toList = .ok [0xB7000000] ∧
    assemble "NOP ; done".toList = .ok [0xC0000000] := by decide

theorem test_assemble_image : assembleImage "ADDI ACC 5\r\n\n   ; comment\nNOP".toList
    = .ok [0x05, 0x00, 0x00, 0x0F, 0x00, 0x00, 0x00, 0xC0] := by decide

theorem test_assemble_range : assemble "NOP\nADDI ACC 99999999".toList
    = .error { line := 2, error := { kind := .outOfRange, token := "99999999".toList } } := by decide

theorem test_assemble_sign : assemble "LOADI ACC -1".toList
    = .error { line := 1, error := { kind := .signNotAccepted, token := "-1".toList } } := by decide

theorem test_assemble_operands :
    assemble "MOVE ACC".toList = .error { line := 1, error := { kind := .missingOperand, token := [] } } ∧
    assemble "NOP 5".toList = .error { line := 1, error := { kind := .trailingGarbage, token := "5".toList } } ∧
    assemble "STORE ACC 0".toList = .error { line := 1, error := { kind := .invalidImmediate, token := "ACC".toList } } ∧
    assemble "LOAD ACK 0".toList = .error { line := 1, error := { kind := .invalidRegister, token := "ACK".toList } } := by
  decide

theorem test_assemble_mnemonics :
    assemble "JUMP< 3".toList = .error { line := 1, error := { kind := .unknownMnemonic, token := "JUMP<".toList } } ∧
    assemble "addi ACC 1".toList = .error { line := 1, error := { kind := .unknownMnemonic, token := "addi".toList } } := by
  decide

theorem test_assemble_blank_line : assemble "NOP\n   \nNOP".toList
    = .error { line := 2, error := { kind := .unexpectedEmptyLine, token := [] } } := by decide

theorem test_assemble_bare_cr : assemble "NOP\rNOP".toList
    = .error { line := 1, error := { kind := .bareCarriageReturn, token := ['\r'] } } := by decide

/-! ### Witnesses: concrete states and operands that meet all hypotheses of an obligation -/

/-- A running state in the middle of a run: data at address 99 under ADDR_LIMIT 100, one record, one step of a budget of 2
used, a store of ACC at PC. -/
def busy (w : Word) : State :=
  { pc := 1, in1 := 98, in2 := 0xFFFFFFFF, acc := 0x80000000, code := [0x43000005, w, 0xC0000000],
    mem := [(396, 7), (399, 0x80)], valid := [0, 99], status := .running, steps := 1,
    anomalies := [⟨0, 5⟩], beyond := false, params := { stepLimit := some 2, addrLimit := some 100 } }

/-- The data side of `busy` is well-formed. -/
theorem busy_dataInv (w : Word) : DataInv (busy w) := by
  have h : Memory.wf [(396, 7), (399, 0x80)] := by decide
  exact ⟨h, by simp [busy], by simp [busy], by simp [busy]⟩

/-- `busy` meets the invariant of the machine. -/
theorem busy_machineInv (w : Word) : MachineInv (busy w) :=
  ⟨busy_dataInv w,
    { codeLength := by simp [busy]
      budget := by simp [busy]
      beyond := by simp [busy]
      status := by simp [busy, statusMeans]
      records := by simp [busy, Admitted]
      policy := by simp [busy]
      recordCount := by simp [busy] }⟩

/-- The budget of `busy` has one step left: `steps` is just below the limit. -/
theorem busy_budget (w : Word) : ∀ l, (busy w).params.stepLimit = some l → (busy w).steps < l := by
  simp [busy]

theorem witness_RegisterCodesNameRegisters :
    decode 0xB7ABCDEF = .legal (.move .in1 .acc) ∧ dstOf (.move .in1 .acc) = some .acc ∧
    srcOf (.move .in1 .acc) = some .in1 := by decide

/-- A word of the row of LOAD, and a word at the end of the Compute family that is in no row. -/
theorem witness_OpcodeMapDecodes :
    0x4F000001#32 &&& 0xF0000000#32 = 0x40000000#32 ∧
    0x3FFFFFFF#32 &&& 0xF0000000#32 = 0x30000000#32 ∧ 0x3FFFFFFF#32 &&& 0xFC000000#32 = 0x3C000000#32 ∧
    0x3FFFFFFF#32 &&& 0xF8000000#32 = 0x38000000#32 := by decide

theorem witness_IllegalWordsExactly :
    (busy 0x3FFFFFFF).status = .running ∧ (busy 0x3FFFFFFF).code[(busy 0x3FFFFFFF).pc.toNat]? = some 0x3FFFFFFF ∧
    (∀ l, (busy 0x3FFFFFFF).params.stepLimit = some l → (busy 0x3FFFFFFF).steps < l) ∧
    decode 0x3FFFFFFF = .illegal :=
  ⟨rfl, rfl, busy_budget _, by decide⟩

theorem witness_DontCareBitsAreIgnored :
    decode 0x8F000005 = .legal (.store 5) ∧
    0x8F000005 &&& ~~~(Instr.store 5).opcode.dontCare = 0x80000005 &&& ~~~(Instr.store 5).opcode.dontCare ∧
    (busy 0x8F000005).code[(busy 0x8F000005).pc.toNat]? = some 0x8F000005 ∧
    ∃ t, step (busy 0x8F000005) = .next t :=
  ⟨by decide, by decide, rfl, _, rfl⟩

theorem witness_EncodeAndDecodeAgree :
    decode 0xF8FFFFFF = .legal (.jump 0xFFFFFF) ∧ canonical 0xF8FFFFFF = true := by decide

theorem witness_ImagesAreLittleEndian :
    wordsOfImage [0x2A, 0, 0, 0x73, 1, 0, 0, 0x80] = some [0x7300002A, 0x80000001] ∧ wordsOfImage [10, 0, 0, 0] = some [10] ∧
    wordsOfImage [1, 2, 3] = none := by decide

theorem witness_DisassemblyReassembles :
    decode 0xE8800000 = .legal (.jumpne 0x800000) ∧ canonical 0xE8800000 = true := by decide

theorem witness_RenderingIsBounded : disassemble 0x53FFFFFF = some "LOADIN1 ACC 16777215".toList := by decide

/-- The least literal of a signed opcode, and the greatest of an unsigned one. -/
theorem witness_LiteralRangeIsChecked :
    Opcode.subi.hasImm = true ∧ readLiteral "-0x800000".toList = some ⟨true, 0x800000⟩ ∧
    Opcode.store.hasImm = true ∧ readLiteral "16777215".toList = some ⟨false, 16777215⟩ := by decide

theorem witness_FirstLineErrorAbortsAssembly :
    (splitLines (joinCrLf "NOP\r\nNOP 5".toList))[1]? = some "NOP 5".toList ∧
    readLine "NOP 5".toList = .error { kind := .trailingGarbage, token := "5".toList } ∧
    (∀ j l, j < 1 → (splitLines (joinCrLf "NOP\r\nNOP 5".toList))[j]? = some l → ∃ x, readLine l = .ok x) := by
  refine ⟨by decide, by decide, ?_⟩
  intro j l hj hl
  obtain rfl : j = 0 := by omega
  obtain rfl : "NOP".toList = l := Option.some.inj hl
  exact ⟨some .nop, by decide⟩

/-! #### Accesses: address 99 is the last one admitted in `busy`, 100 the first that is not -/

theorem busy_readable_written (w : Word) : Readable (busy w) 99 := ⟨by simp [busy, Admitted], .inl (by simp [busy]; rfl)⟩

theorem busy_readable_unwritten (w : Word) : Readable (busy w) 98 := ⟨by simp [busy, Admitted], .inr (by simp [busy])⟩

theorem busy_admitted (w : Word) : Admitted (busy w) 99 := (busy_readable_written w).1

theorem busy_notAdmitted (w : Word) : ¬ Admitted (busy w) 100 := by simp [busy, Admitted]

theorem witness_LoadCompletes : Readable (busy 0x43000063) (eaDirect 99) ∧ Readable (busy 0x43000062) (eaDirect 98) :=
  ⟨busy_readable_written _, busy_readable_unwritten _⟩

/-- IN1 + 1 is 99, and IN2 + 100 wraps to 99. -/
theorem witness_IndexedLoadsComplete :
    Readable (busy 0x53000001) (eaIndexed (busy 0x53000001).in1 1) ∧
    Readable (busy 0x63000064) (eaIndexed (busy 0x63000064).in2 100) :=
  ⟨busy_readable_written _, busy_readable_written _⟩

theorem witness_StoresComplete :
    Admitted (busy 0x80000063) (eaDirect 99) ∧
    Admitted (busy 0x90000001) (eaIndexed (busy 0x90000001).in1 1) ∧
    Admitted (busy 0xA0000064) (eaIndexed (busy 0xA0000064).in2 100) :=
  ⟨busy_admitted _, busy_admitted _, busy_admitted _⟩

/-- The signed address of the field 0xFFFFFF is the top of the data space; both forms of address reach 99. -/
theorem witness_ComputeMemoriesComplete :
    Readable (busy 0x2F000063) (eaSigned 99) ∧ Readable (busy 0x3B000063) (eaDirect 99) ∧
    Readable (holding 0xFFFFFFFF 1 (poised 0 0x2BFFFFFF)) (eaSigned 0xFFFFFF) :=
  ⟨busy_readable_written _, busy_readable_written _, by simp [poised, holding, memWrite, Admitted, State.reset], .inl (by decide)⟩

/-- A read and a store at the limit; an instruction that completes without a limit. -/
theorem witness_AccessBeyondCapacityIsFatal :
    (readAddress (.load .acc 100) (busy 0x43000064) = some 100 ∧ storeAddress (.store 100) (busy 0x80000064) = some 100 ∧
      (busy 0).params.addrLimit = some 100 ∧ 100 ≤ (100 : Word).toNat) ∧
    ((poised 0 0x80FFFFFF).params.addrLimit = none ∧ (∃ t, exec (.store 0xFFFFFF) (poised 0 0x80FFFFFF) = .next t) ∧
      (poised 0 0x80FFFFFF).status = .running) :=
  ⟨⟨rfl, rfl, rfl, by decide⟩, rfl, ⟨_, rfl⟩, rfl⟩

/-- `busy` with a policy. -/
def busyUnder (p : UninitPolicy) : State :=
  { busy 0x43000062 with anomalies := [], params := { stepLimit := some 2, addrLimit := some 100, uninitPolicy := p } }

theorem witness_UninitializedReadUnderStopIsFatal :
    readAddress (.load .acc 98) (busyUnder .stop) = some 98 ∧ Admitted (busyUnder .stop) 98 ∧
    (busyUnder .stop).valid.isValid 98 = false ∧ (busyUnder .stop).params.uninitPolicy = .stop :=
  ⟨rfl, by simp [busyUnder, Admitted], by decide, rfl⟩

/-- Under `warn` and under `suppress`. -/
theorem witness_UninitializedReadIsRecorded :
    DataInv (busyUnder .suppress) ∧ DataInv (busy 0x43000062) ∧
    readAddress (.load .acc 98) (busy 0x43000062) = some 98 ∧ Admitted (busy 0x43000062) 98 ∧
    Admitted (busyUnder .suppress) 98 ∧ (busy 0x43000062).valid.isValid 98 = false ∧
    (busy 0x43000062).params.uninitPolicy = .warn ∧ (busyUnder .suppress).params.uninitPolicy = .suppress :=
  ⟨⟨(busy_dataInv 0).memory, (busy_dataInv 0).validity, (busy_dataInv 0).inSpace, (busy_dataInv 0).written⟩,
    busy_dataInv _, rfl, (busy_readable_unwritten _).1, by simp [busyUnder, Admitted], by decide, rfl, rfl⟩

theorem witness_NeverWrittenWordHoldsZero : DataInv (busy 0) ∧ (busy 0).valid.isValid 98 = false :=
  ⟨busy_dataInv 0, by decide⟩

theorem witness_SuppressOnlyDropsRecords :
    (busy 0x43000062).params.uninitPolicy = .warn ∧ ∃ t, exec (.load .acc 98) (busy 0x43000062) = .next t :=
  ⟨rfl, _, rfl⟩

/-! #### The controller -/

theorem witness_StepRunsDecodedInstruction :
    (busy 0x80000063).status = .running ∧ (busy 0x80000063).code[(busy 0x80000063).pc.toNat]? = some 0x80000063 ∧
    (∀ l, (busy 0x80000063).params.stepLimit = some l → (busy 0x80000063).steps < l) ∧
    decode 0x80000063 = .legal (.store 99) :=
  ⟨rfl, rfl, busy_budget _, by decide⟩

/-- PC at the length of the code, and one past it. -/
theorem witness_RunEndsAtEndOfCode :
    ({ busy 0 with pc := 3 }).status = .running ∧ ({ busy 0 with pc := 3 }).pc.toNat = (busy 0).code.length ∧
    (busy 0).code.length < ({ busy 0 with pc := 4 }).pc.toNat := by
  refine ⟨rfl, by decide, by decide⟩

/-- The budget just spent, and a run without a budget. -/
theorem witness_StepBudgetHalts :
    (({ busy 0 with steps := 2 }).status = .running ∧ ({ busy 0 with steps := 2 }).pc.toNat < (busy 0).code.length ∧
      ({ busy 0 with steps := 2 }).params.stepLimit = some 2 ∧ 2 ≤ ({ busy 0 with steps := 2 }).steps) ∧
    ((poised 0 0xC0000000).params.stepLimit = none ∧ ∃ t, step (poised 0 0xC0000000) = .next t) := by
  refine ⟨⟨rfl, by decide, rfl, by decide⟩, rfl, _, rfl⟩

/-- One witness for each check of the step, the clauses in their order: the end of the code; the budget; an Illegal word;
an address not admitted (read, stored); an uninitialized read under `stop` and under `warn`; no check fails. -/
theorem witness_ChecksRunInOrder :
    ((busy 0).code.length ≤ ({ busy 0 with pc := 3 }).pc.toNat) ∧
    (({ busy 0 with steps := 2 }).pc.toNat < (busy 0).code.length ∧
      ∃ l, ({ busy 0 with steps := 2 }).params.stepLimit = some l ∧ l ≤ ({ busy 0 with steps := 2 }).steps) ∧
    ((busy 0).code[(busy 0).pc.toNat]? = some 0 ∧ (∀ l, (busy 0).params.stepLimit = some l → (busy 0).steps < l) ∧
      decode 0 = .illegal) ∧
    (decode 0x43000064 = .legal (.load .acc 100) ∧ readAddress (.load .acc 100) (busy 0x43000064) = some 100 ∧
      ¬ Admitted (busy 0x43000064) 100) ∧
    (decode 0x80000064 = .legal (.store 100) ∧ storeAddress (.store 100) (busy 0x80000064) = some 100 ∧
      ¬ Admitted (busy 0x80000064) 100) ∧
    (decode 0x43000062 = .legal (.load .acc 98) ∧ readAddress (.load .acc 98) (busyUnder .stop) = some 98 ∧
      Admitted (busyUnder .stop) 98 ∧ (busyUnder .stop).valid.isValid 98 = false ∧
      (busyUnder .stop).params.uninitPolicy = .stop) ∧
    (Admitted (busy 0x43000062) 98 ∧ (busy 0x43000062).valid.isValid 98 = false ∧
      (busy 0x43000062).params.uninitPolicy = .warn) ∧
    (decode 0x43000063 = .legal (.load .acc 99) ∧
      (∀ a, readAddress (.load .acc 99) (busy 0x43000063) = some a → Readable (busy 0x43000063) a) ∧
      (∀ a, storeAddress (.load .acc 99) (busy 0x43000063) = some a → Admitted (busy 0x43000063) a)) := by
  refine ⟨by decide, ⟨by decide, 2, rfl, by decide⟩, ⟨rfl, busy_budget _, by decide⟩, ⟨by decide, rfl, busy_notAdmitted _⟩,
    ⟨by decide, rfl, busy_notAdmitted _⟩,
    ⟨by decide, rfl, by simp [busyUnder, Admitted], by decide, rfl⟩,
    ⟨(busy_readable_unwritten _).1, by decide, rfl⟩, by decide, ?_, ?_⟩
  · intro a h
    obtain rfl : 99 = a := Option.some.inj h
    exact busy_readable_written _
  · intro a h
    cases h

/-- A stop that is neither a running state nor a self-loop: the store at the limit. -/
theorem witness_StopsArePrecise :
    ∃ t, step (busy 0x80000064) = .next t ∧ t.status ≠ .running ∧ t.status ≠ .halted .selfLoop :=
  ⟨_, rfl, by decide, by decide⟩

/-- A committed step that ends the run on itself, and one that does not. -/
theorem witness_SelfLoopHalts :
    (∃ t, step (busy 0xF8000000) = .next t ∧ t.status = .halted .selfLoop ∧ t.steps = (busy 0xF8000000).steps + 1 ∧
      t.pc = (busy 0xF8000000).pc) ∧
    (∃ t, step (busy 0xF8000001) = .next t ∧ t.steps = (busy 0xF8000001).steps + 1 ∧ t.pc ≠ (busy 0xF8000001).pc) :=
  ⟨⟨_, rfl, by decide, by decide, by decide⟩, _, rfl, by decide, by decide⟩

/-- A step that is counted, and ends that are not: at the end of the code, on an Illegal word, on a spent budget. -/
theorem witness_CommittedStepsAreCounted :
    (∃ t, step (busy 0xC0000000) = .next t ∧ t.status = .running) ∧
    (∃ t, step { busy 0 with pc := 3 } = .next t ∧ t.status = .halted .endOfCode) ∧
    (∃ t, step { busy 0 with pc := 4 } = .next t ∧ t.status = .halted .beyond) ∧
    (∃ t, step { busy 0 with steps := 2 } = .next t ∧ t.status = .halted .stepLimit) ∧
    (∃ t, step (busy 0) = .next t ∧ ∃ f, t.status = .fatal f) :=
  ⟨⟨_, rfl, by decide⟩, ⟨_, rfl, by decide⟩, ⟨_, rfl, by decide⟩, ⟨_, rfl, by decide⟩, _, rfl, _, rfl⟩

/-- A store at the last admitted address: a byte next to it, and a flag that the store sets. -/
theorem witness_OneWritePerStep :
    (∃ t, exec (.store 98) (busy 0x80000062) = .next t ∧ t.valid.isValid 98 ≠ (busy 0x80000062).valid.isValid 98) ∧
    storeAddress (.store 98) (busy 0x80000062) = some 98 ∧ Admitted (busy 0x80000062) 98 ∧
    dstOf (.store 98) ≠ some .acc ∧
    (∀ a, storeAddress (.store 98) (busy 0x80000062) = some a → 396 / 4 ≠ a.toNat) := by
  refine ⟨⟨_, rfl, by decide⟩, rfl, (busy_readable_unwritten _).1, by decide, ?_⟩
  intro a h
  obtain rfl : 98 = a := Option.some.inj h
  decide

/-- A store at an admitted address, a flag that stays true, a flag that a store sets, and the flags of a launch at the end of its data. -/
theorem witness_ValidityIsPermanent :
    (storeAddress (.store 98) (busy 0x80000062) = some 98 ∧ Admitted (busy 0x80000062) 98 ∧
      ∃ t, exec (.store 98) (busy 0x80000062) = .next t) ∧
    (∃ t, step (busy 0x80000062) = .next t ∧ (busy 0x80000062).valid.isValid 99 = true ∧
      (busy 0x80000062).valid.isValid 98 = false ∧ t.valid.isValid 98 = true) ∧
    (∃ s, launch [0xC0000000] [10, 0] {} = .ok s ∧ s.valid.isValid 1 = true ∧ s.valid.isValid 2 = false) :=
  ⟨⟨rfl, (busy_readable_unwritten _).1, _, rfl⟩, ⟨_, rfl, by decide, by decide, by decide⟩, _, rfl, by decide, by decide⟩

theorem witness_RecordsDoNotAffectExecution : ∃ t, exec (.loadin2 .acc 100) (busy 0x63000064) = .next t := ⟨_, rfl⟩

theorem witness_RunningStatesStep :
    (busy 0).status = .running ∧ ({ busy 0 with status := .halted .selfLoop }).status ≠ .running := by
  refine ⟨rfl, by decide⟩

theorem witness_StoredWordIsLoadedBack : Admitted (busy 0x80000063) (eaDirect 99) := busy_admitted _

/-- Both directions: a step that is traced, and what its trace says. -/
theorem witness_TraceIsTheDecodedWord :
    traceEvent (busy 0x80000063) = some (1, 0x80000063) ∧ (busy 0x80000063).status = .running ∧
    (busy 0x80000063).code[(busy 0x80000063).pc.toNat]? = some 0x80000063 ∧
    (∀ l, (busy 0x80000063).params.stepLimit = some l → (busy 0x80000063).steps < l) ∧
    decode 0x80000063 = .legal (.store 99) :=
  ⟨by decide, rfl, rfl, busy_budget _, by decide⟩

/-! #### Launch, invariants, runs -/

theorem witness_LaunchLoadsCodeAndData :
    ([0xC0000000#32].length ≤ 2 ^ 32 ∧ [10#32, 0#32].length ≤ 2 ^ 32) ∧
    (∃ s, launch [0xC0000000] [10, 0] {} = .ok s) ∧
    [10#32, 0#32][(1 : Word).toNat]? = some 0 ∧ [10#32, 0#32].length ≤ (2 : Word).toNat :=
  ⟨by decide, ⟨_, rfl⟩, by decide, by decide⟩

/-- A code image and a data image with a truncated word, images without one, and a launch without code. -/
theorem witness_TruncatedImagesStartNoRun :
    [5#8].length % 4 ≠ 0 ∧ [1#8, 2#8, 3#8].length % 4 ≠ 0 ∧
    ([5#8, 0#8, 0#8, 0x0F#8].length % 4 = 0 ∧ [5#8, 0#8, 0#8, 0x0F#8].length ≤ 2 ^ 34) ∧
    ∃ s, launch [] [10, 0] {} = .ok s :=
  ⟨by decide, by decide, by decide, _, rfl⟩

theorem witness_StepKeepsInvariant :
    MachineInv (busy 0x80000063) ∧ ∃ t, step (busy 0x80000063) = .next t :=
  ⟨busy_machineInv _, _, rfl⟩

theorem witness_LaunchMeetsInvariant :
    ∃ s, launch [0xC0000000] [10, 0] { stepLimit := some 0, addrLimit := some 1 } = .ok s := ⟨_, rfl⟩

/-- A budget just spent and a budget with one step left. -/
theorem witness_StepBudgetBoundsRuns :
    (({ busy 0xF8000000 with steps := 2 }).params.stepLimit = some 2 ∧ ({ busy 0xF8000000 with steps := 2 }).steps ≤ 2) ∧
    ((busy 0xF8000000).params.stepLimit = some 2 ∧ (busy 0xF8000000).steps ≤ 2) := by
  refine ⟨⟨rfl, by decide⟩, rfl, by decide⟩

/-- A run of one step whose step stores at another address. -/
theorem witness_RunKeepsUnstoredWords :
    ∀ m w ins, m < 1 → (runFor m (busy 0x80000062)).code[(runFor m (busy 0x80000062)).pc.toNat]? = some w →
      decode w = .legal ins → storeAddress ins (runFor m (busy 0x80000062)) ≠ some 99 := by
  intro m w ins hm hw hd
  obtain rfl : m = 0 := by omega
  obtain rfl : 0x80000062#32 = w := Option.some.inj hw
  obtain rfl : Instr.store 98 = ins := by
    have h : decode 0x80000062#32 = .legal (.store 98) := by decide
    rw [h] at hd
    exact Decoded.legal.inj hd
  decide

end Sys2Proof.Tests
end

