-- ==== Sys2Proof/Proofs/RegisterFields.lean ====
section
/-! SUPPORT. The register fields of a word: what the decoder reads from them, and that no value of them moves a word from one
opcode to another (R21, R77). -/

namespace Sys2Proof

/-! ### Register codes and operands -/

@[simp] theorem Reg.code_ofCode (c : BitVec 2) : (Reg.ofCode c).code = c := by revert c; decide

theorem dstOf_instr (op : Opcode) (s d : Reg) (i : Imm) :
    Machine.dstOf (op.instr s d i) = if op.hasDst then some d else none := by cases op <;> rfl

theorem srcOf_instr (op : Opcode) (s d : Reg) (i : Imm) :
    Machine.srcOf (op.instr s d i) = if op.hasSrc then some s else none := by cases op <;> rfl

/-- The destination of a decoded instruction is read from the D field. -/
theorem dst_of_decode {w : Word} {i : Instr} {d : Reg} (h : decode w = .legal i) (hd : Machine.dstOf i = some d) :
    d = Reg.ofCode (w.extractLsb' 24 2) := by
  obtain ⟨op, -, rfl⟩ := decode_legal_iff.1 h
  rw [dstOf_instr, Option.ite_none_right_eq_some] at hd
  exact (Option.some.inj hd.2).symm

/-- The source of a decoded instruction is read from the S field. -/
theorem src_of_decode {w : Word} {i : Instr} {r : Reg} (h : decode w = .legal i) (hr : Machine.srcOf i = some r) :
    r = Reg.ofCode (w.extractLsb' 26 2) := by
  obtain ⟨op, -, rfl⟩ := decode_legal_iff.1 h
  rw [srcOf_instr, Option.ite_none_right_eq_some] at hr
  exact (Option.some.inj hr.2).symm

/-! ### The opcode under a changed register field -/

theorem loadOpcode_family (m : BitVec 2) : (loadOpcode m).family = .load := by revert m; decide

theorem storeOpcode_family (m : BitVec 2) : (storeOpcode m).family = .store := by revert m; decide

theorem jumpOpcode_family (c : BitVec 3) : (jumpOpcode c).family = .jump := by revert c; decide

theorem computeOpcode_family {mi : BitVec 1} {f : BitVec 3} {op : Opcode} (h : computeOpcode mi f = some op) :
    op.family = .compute := by
  revert mi f op; decide

/-- Bits 31:30 of a legal word name the family of its opcode (R61). -/
theorem decodeOpcode_family {w : Word} {op : Opcode} (h : decodeOpcode w = some op) :
    Family.ofCode (w.extractLsb' 30 2) = op.family := by
  unfold decodeOpcode at h
  split at h
  case h_1 hf => rw [← Option.some.inj h, loadOpcode_family, hf]
  case h_2 hf => rw [← Option.some.inj h, storeOpcode_family, hf]
  case h_3 hf => rw [computeOpcode_family h, hf]
  case h_4 hf => rw [← Option.some.inj h, jumpOpcode_family, hf]

/-- Bits 31:26 settle the opcode; the D field and the immediate have no part in it. -/
theorem decodeOpcode_congr {w w' : Word} (h : ∀ l n, 26 ≤ l → w'.extractLsb' l n = w.extractLsb' l n) :
    decodeOpcode w' = decodeOpcode w := by
  unfold decodeOpcode
  rw [h 30 2 (by decide), h 28 2 (by decide), h 29 1 (by decide), h 26 3 (by decide), h 27 3 (by decide)]

/-- In the Store family bits 31:28 settle the opcode; the S field has no part in it. -/
theorem decodeOpcode_congr_of_store {w w' : Word} (hw : Family.ofCode (w.extractLsb' 30 2) = .store)
    (h : ∀ l n, 28 ≤ l → w'.extractLsb' l n = w.extractLsb' l n) : decodeOpcode w' = decodeOpcode w := by
  simp only [decodeOpcode, h 30 2 (by decide), h 28 2 (by decide), hw]

/-- Only a word of the Store family decodes to an instruction with a source register (R66). -/
theorem family_of_hasSrc {op : Opcode} (h : op.hasSrc = true) : op.family = .store := by
  obtain rfl : op = .move := eq_of_beq h
  rfl

/-- The bits above a register field stay when another code is put there. -/
theorem extract_above_regField (w : Word) (lo l n : Nat) (c : BitVec 2) (h : lo + 2 ≤ l) :
    (w &&& ~~~(field lo 3#2) ||| field lo c).extractLsb' l n = w.extractLsb' l n := by
  have clear (k : Nat) : (field lo 3#2).getLsbD (l + k) = false := by
    have := congrArg (BitVec.getLsbD · 0) (extract_field_other lo 3#2 (l + k) 1 (.inr (by omega)))
    simpa using this
  rw [extract_or, extract_field_other lo c l n (.inr h), BitVec.or_zero]
  ext k hk
  simp only [BitVec.getElem_extractLsb', BitVec.getLsbD_and, BitVec.getLsbD_not, clear, Bool.not_false, Bool.and_true]
  by_cases hlt : l + k < 32
  · simp [hlt]
  · simp [BitVec.getLsbD_of_ge w (l + k) (by omega)]

/-- No value of the D field moves a word to another opcode. -/
theorem decodeOpcode_set_dst (w : Word) (c : BitVec 2) :
    decodeOpcode (w &&& ~~~0x03000000 ||| field 24 c) = decodeOpcode w :=
  decodeOpcode_congr fun l n hl => extract_above_regField w 24 l n c hl

/-- No value of the S field moves a word of the Store family to another opcode. -/
theorem decodeOpcode_set_src {w : Word} (hw : Family.ofCode (w.extractLsb' 30 2) = .store) (c : BitVec 2) :
    decodeOpcode (w &&& ~~~0x0C000000 ||| field 26 c) = decodeOpcode w :=
  decodeOpcode_congr_of_store hw fun l n hl => extract_above_regField w 26 l n c hl

/-- A word with the opcode of a legal word is legal: no operand field is checked. -/
theorem legal_of_decodeOpcode_eq {w w' : Word} {i : Instr} (h : decode w = .legal i)
    (he : decodeOpcode w' = decodeOpcode w) : ∃ i', decode w' = .legal i' := by
  obtain ⟨op, hop, -⟩ := decode_legal_iff.1 h
  exact ⟨_, decode_legal_iff.2 ⟨op, he.trans hop, rfl⟩⟩

/-- A word whose instruction carries a source register lies in the Store family. -/
theorem store_family_of_src {w : Word} {i : Instr} (h : decode w = .legal i) (hs : Machine.srcOf i ≠ none) :
    Family.ofCode (w.extractLsb' 30 2) = .store := by
  obtain ⟨op, hop, rfl⟩ := decode_legal_iff.1 h
  rw [decodeOpcode_family hop]
  apply family_of_hasSrc
  by_contra hn
  exact hs (by rw [srcOf_instr, if_neg hn])

/-- Settles O1: the opcode of a word is settled above its register fields, so that the decoder's verdict survives any code in
them, and the operands are read through `Reg.ofCode`. -/
theorem registerCodesNameRegisters : Obligations.RegisterCodesNameRegisters := by
  refine ⟨rfl, rfl, rfl, rfl, Reg.code_ofCode, fun w i c h => ⟨?_, fun hs => ?_⟩, fun w i h => ⟨?_, ?_⟩⟩
  · exact legal_of_decodeOpcode_eq h (decodeOpcode_set_dst w c)
  · exact legal_of_decodeOpcode_eq h (decodeOpcode_set_src (store_family_of_src h hs) c)
  · exact fun d hd => dst_of_decode h hd
  · exact fun r hr => src_of_decode h hr

end Sys2Proof
end

