-- ==== Sys2Proof/Proofs/Validity.lean ====
section
/-! SUPPORT. The validity flags after an instruction, after a step and after the data load, each as an equivalence (R26). -/

namespace Sys2Proof.Machine

/-! ### One instruction -/

/-- No instruction both stores and reads data. -/
theorem readAddress_eq_none_of_storeAddress {ins : Instr} {s : State} {a : Word} (h : storeAddress ins s = some a) :
    readAddress ins s = none := by
  cases ins <;> simp [storeAddress, readAddress] at h ⊢

/-- An instruction that stores at an admitted address ends with no fatal condition. -/
theorem FatalOf.not_admitted_of_store {ins : Instr} {s : State} {f : FatalReason} {a : Word} (hf : FatalOf ins s f)
    (hs : storeAddress ins s = some a) : ¬ Admitted s a := by
  have hr := readAddress_eq_none_of_storeAddress hs
  cases hf with
  | capacity b h hb =>
    rcases h with h | h
    · simp [hr] at h
    · obtain rfl : a = b := Option.some.inj (hs.symm.trans h)
      exact hb
  | uninitStop b h => simp [hr] at h

/-- The flags after a committed data write: those that were set, and that of the written address. -/
theorem isValid_applyMemWrite (w : Option (Word × Word)) (s : State) (a : Word) :
    (applyMemWrite w s).valid.isValid a = true ↔ s.valid.isValid a = true ∨ ∃ v, w = some (a, v) := by
  rcases w with _ | ⟨b, v⟩
  · simp [applyMemWrite]
  · have same : (∃ v', some (b, v) = some (a, v')) ↔ a = b := by simp [eq_comm (a := a)]
    rw [same, applyMemWrite, memWrite_valid, isValid_mark, Bool.or_eq_true, beq_iff_eq, or_comm]

/-- The flags after an instruction: those that were set, and that of an admitted store address. -/
theorem exec_isValid {ins : Instr} {s t : State} (h : exec ins s = .next t) (a : Word) :
    t.valid.isValid a = true ↔ s.valid.isValid a = true ∨ storeAddress ins s = some a ∧ Admitted s a := by
  have hr := exec_cases ins s
  rw [h] at hr
  cases hr with
  | committed e he =>
    have written : (∃ v, e.memWrite = some (a, v)) ↔ storeAddress ins s = some a ∧ Admitted s a := by
      constructor
      · rintro ⟨v, hv⟩
        obtain ⟨hs, -, ha⟩ := he.mem a v hv
        exact ⟨hs, ha⟩
      · rintro ⟨hs, -⟩
        exact ⟨s.acc, he.stores a hs⟩
    rw [commit_valid, isValid_applyMemWrite, written]
  | stopped f hf =>
    rw [raiseFatal_valid]
    exact ⟨.inl, fun h => h.resolve_right fun ⟨hs, ha⟩ => hf.not_admitted_of_store hs ha⟩

/-! ### One step -/

/-- The word the Fetch stage gives stands at PC. -/
theorem code_of_fetch {s : State} {w : Word} (h : fetch s = .word w) : s.code[s.pc.toNat]? = some w := by
  rcases fetch_cases s with ⟨-, hf⟩ | ⟨-, hf⟩ | ⟨-, -, hf⟩ | ⟨v, hv, -, hf⟩ <;> rw [hf] at h
  · cases h
  · cases h
  · cases h
  · cases h
    exact hv

/-- The flags after a step: those that were set, and that of the admitted store address of the fetched instruction. -/
theorem step_isValid {s t : State} (h : step s = .next t) (a : Word) :
    t.valid.isValid a = true ↔ s.valid.isValid a = true ∨
      ∃ w ins, fetch s = .word w ∧ decode w = .legal ins ∧ storeAddress ins s = some a ∧ Admitted s a := by
  obtain ⟨-, ⟨r, hf, rfl⟩ | ⟨w, hf, hd, rfl⟩ | ⟨w, i, hf, hd, he⟩⟩ := step_cases h
  · simp [hf]
  · simp [hf, hd]
  · simp [hf, hd, exec_isValid he a]

/-! ### The data load -/

/-- The flags after a data load within the data space: those that were set, and those of the loaded addresses (R200). -/
theorem isValid_loadData (ws : List Word) (n : Nat) (s : State) (hn : n + ws.length ≤ 2 ^ 32) (a : Word) :
    (loadData ws n s).valid.isValid a = true ↔
      s.valid.isValid a = true ∨ n ≤ a.toNat ∧ a.toNat < n + ws.length := by
  induction ws generalizing n s with
  | nil => simp [loadData]
  | cons w ws ih =>
    rw [List.length_cons] at hn ⊢
    have atFirst : a = BitVec.ofNat 32 n ↔ a.toNat = n := by
      rw [← BitVec.toNat_inj, BitVec.toNat_ofNat, Nat.mod_eq_of_lt (by omega)]
    rw [loadData, ih (n + 1) _ (by omega), memWrite_valid, isValid_mark, Bool.or_eq_true, beq_iff_eq, atFirst]
    constructor
    · rintro ((h | h) | h)
      · exact .inr (by omega)
      · exact .inl h
      · exact .inr (by omega)
    · rintro (h | h)
      · exact .inl (.inr h)
      · by_cases ha : a.toNat = n
        · exact .inl (.inl ha)
        · exact .inr (by omega)

/-- What a launch that starts a run gives: the data load over the reset state (R32, R200). -/
theorem launch_ok {code data : List Word} {params : LaunchParams} {s : State} (h : launch code data params = .ok s) :
    code.length ≤ 2 ^ 32 ∧ data.length ≤ 2 ^ 32 ∧
      s = loadData data 0 { State.reset with code := code, params := params } := by
  unfold launch at h
  split at h
  · cases h
  · next hc =>
    split at h
    · cases h
    · next hd => exact ⟨not_lt.1 hc, not_lt.1 hd, (Except.ok.inj h).symm⟩

/-- The flags of a launched state: those of the data words (R26, R200). -/
theorem launch_isValid {code data : List Word} {params : LaunchParams} {s : State}
    (h : launch code data params = .ok s) (a : Word) : s.valid.isValid a = true ↔ a.toNat < data.length := by
  obtain ⟨-, hd, rfl⟩ := launch_ok h
  rw [isValid_loadData _ _ _ (by omega)]
  simp [State.reset, isValid_iff]

/-- Settles O40: each clause reads off the equivalence for an instruction, a step or the data load. -/
theorem validityIsPermanent : Obligations.ValidityIsPermanent := by
  refine ⟨fun ins s t a hs ha h => ?_, fun s t a h hv => ?_, fun s t a h hv hv' => ?_, fun code data params s a h => ?_⟩
  · exact (exec_isValid h a).2 (.inr ⟨hs, ha⟩)
  · exact (step_isValid h a).2 (.inl hv)
  · obtain hold | ⟨w, ins, hf, hd, hs, -⟩ := (step_isValid h a).1 hv'
    · simp [hv] at hold
    · exact ⟨w, ins, code_of_fetch hf, hd, hs⟩
  · exact launch_isValid h a

end Sys2Proof.Machine
end

