-- ==== Sys2Proof/Proofs/Images.lean ====
section
/-! SUPPORT. Images as lists of bytes: reading an image into words and writing words as an image undo each other, and the
length alone says which images are refused (R41). -/

namespace Sys2Proof

/-! ### One word -/

/-- The word that four bytes form has those four bytes. -/
theorem wordBytes_wordOfBytes (b0 b1 b2 b3 : Byte) : wordBytes (wordOfBytes b0 b1 b2 b3) = [b0, b1, b2, b3] := by
  have byte0 : (wordOfBytes b0 b1 b2 b3).extractLsb' 0 8 = b0 := BitVec.extractLsb'_append_eq_right
  have byte1 : (wordOfBytes b0 b1 b2 b3).extractLsb' 8 8 = b1 :=
    (BitVec.extractLsb'_append_eq_of_le (by decide)).trans BitVec.extractLsb'_append_eq_right
  have byte2 : (wordOfBytes b0 b1 b2 b3).extractLsb' 16 8 = b2 :=
    (BitVec.extractLsb'_append_eq_of_le (by decide)).trans <|
      (BitVec.extractLsb'_append_eq_of_le (by decide)).trans BitVec.extractLsb'_append_eq_right
  have byte3 : (wordOfBytes b0 b1 b2 b3).extractLsb' 24 8 = b3 :=
    (BitVec.extractLsb'_append_eq_of_le (by decide)).trans <|
      (BitVec.extractLsb'_append_eq_of_le (by decide)).trans BitVec.extractLsb'_append_eq_left
  rw [wordBytes, byte0, byte1, byte2, byte3]

/-! ### Images -/

@[simp] theorem imageOfWords_nil : imageOfWords [] = [] := rfl

@[simp] theorem imageOfWords_cons (w : Word) (ws : List Word) :
    imageOfWords (w :: ws) = wordBytes w ++ imageOfWords ws := rfl

/-- An image that begins with the bytes of a word is read as that word and the words of the rest. -/
theorem wordsOfImage_wordBytes_append (w : Word) (bs : List Byte) :
    wordsOfImage (wordBytes w ++ bs) = (wordsOfImage bs).map (w :: ·) := by
  simp [wordBytes, wordsOfImage, wordOfBytes_wordBytes]

/-- Reading the image of a sequence of words gives the sequence. -/
theorem wordsOfImage_imageOfWords (ws : List Word) : wordsOfImage (imageOfWords ws) = some ws := by
  induction ws with
  | nil => rfl
  | cons w ws ih => rw [imageOfWords_cons, wordsOfImage_wordBytes_append, ih, Option.map_some]

/-- The words read from an image form that image. -/
theorem imageOfWords_of_wordsOfImage {bs : List Byte} {ws : List Word} (h : wordsOfImage bs = some ws) :
    imageOfWords ws = bs := by
  induction bs using wordsOfImage.induct generalizing ws with
  | case1 => cases h; rfl
  | case2 | case3 | case4 => cases h
  | case5 b0 b1 b2 b3 bs ih =>
    obtain ⟨vs, hvs, rfl⟩ := Option.map_eq_some_iff.1 h
    rw [imageOfWords_cons, wordBytes_wordOfBytes, ih hvs]
    rfl

/-- The refused images are those with 1 to 3 bytes after the last whole word. -/
theorem wordsOfImage_eq_none_iff (bs : List Byte) : wordsOfImage bs = none ↔ bs.length % 4 ≠ 0 := by
  induction bs using wordsOfImage.induct with
  | case1 | case2 | case3 | case4 => simp [wordsOfImage]
  | case5 b0 b1 b2 b3 bs ih =>
    have sameRest : (b0 :: b1 :: b2 :: b3 :: bs).length % 4 = bs.length % 4 := Nat.add_mod_right bs.length 4
    rw [wordsOfImage, Option.map_eq_none_iff, ih, sameRest]

/-! ### The launch from images -/

/-- A launch from two images without a truncated word is the launch from their words. -/
theorem Machine.launchImages_of_words {code data : List Byte} {cs ds : List Word} (params : LaunchParams)
    (hc : wordsOfImage code = some cs) (hd : wordsOfImage data = some ds) :
    Machine.launchImages code data params = Machine.launch cs ds params := by
  simp only [Machine.launchImages, hc, hd]

/-- A truncated word in either image starts no run. -/
theorem Machine.launchImages_of_truncated {code data : List Byte} (params : LaunchParams)
    (h : wordsOfImage code = none ∨ wordsOfImage data = none) :
    ∃ e, Machine.launchImages code data params = .error e := by
  cases hc : wordsOfImage code with
  | none => exact ⟨.truncatedCode, by simp only [Machine.launchImages, hc]⟩
  | some cs =>
    have hd : wordsOfImage data = none := h.resolve_left (by simp [hc])
    exact ⟨.truncatedData, by simp only [Machine.launchImages, hc, hd]⟩

/-- Settles O7: a word and its four bytes determine each other, which carries over to images word by word; the launch reads
both images before anything else. -/
theorem imagesAreLittleEndian : Obligations.ImagesAreLittleEndian :=
  ⟨fun _ => rfl, fun _ _ _ _ => rfl, wordsOfImage_imageOfWords, fun _ _ h => imageOfWords_of_wordsOfImage h,
    wordsOfImage_eq_none_iff, fun _ _ _ _ params hc hd => Machine.launchImages_of_words params hc hd,
    fun _ _ params h => Machine.launchImages_of_truncated params h⟩

end Sys2Proof
end

