-- ==== Sys2Proof/Proofs/Codec.lean ====
section
/-! SUPPORT. The encoder against the decoder: the decoder reads a packed word back, and packing the fields of a word gives the
word with its don't-care bits cleared (R74, R75). The bits 31:26 settle which opcode owns a word, so that a claim about the
opcode of every word is one about the 64 values of those bits (R71); the Illegal words and their number (R72). -/

namespace Sys2Proof

/-! ### The decoder, family by family -/

@[simp] theorem Family.ofCode_code (f : Family) : Family.ofCode f.code = f := by cases f <;> rfl

@[simp] theorem Family.code_ofCode (c : BitVec 2) : (Family.ofCode c).code = c := by revert c; decide

section Families
variable {w : Word}

theorem decodeOpcode_of_load (h : w.extractLsb' 30 2 = Family.load.code) :
    decodeOpcode w = some (loadOpcode (w.extractLsb' 28 2)) := by
  simp only [decodeOpcode, h, Family.ofCode_code]

theorem decodeOpcode_of_store (h : w.extractLsb' 30 2 = Family.store.code) :
    decodeOpcode w = some (storeOpcode (w.extractLsb' 28 2)) := by
  simp only [decodeOpcode, h, Family.ofCode_code]

theorem decodeOpcode_of_compute (h : w.extractLsb' 30 2 = Family.compute.code) :
    decodeOpcode w = computeOpcode (w.extractLsb' 29 1) (w.extractLsb' 26 3) := by
  simp only [decodeOpcode, h, Family.ofCode_code]

theorem decodeOpcode_of_jump (h : w.extractLsb' 30 2 = Family.jump.code) :
    decodeOpcode w = some (jumpOpcode (w.extractLsb' 27 3)) := by
  simp only [decodeOpcode, h, Family.ofCode_code]

end Families

/-! ### Decoding what the encoder packs -/

section Packed
variable (m s d : BitVec 2) (r : Reg) (c : BitVec 3) (mi : BitVec 1) (i : Imm)

/-- The S field of a Load word has no part in the result: `Opcode.instr` drops it. -/
theorem decode_packLoad : decode (packLoad m r i) =
    .legal ((loadOpcode m).instr (Reg.ofCode ((packLoad m r i).extractLsb' 26 2)) r i) := by
  simp [decode, decodeOpcode_of_load]

theorem decode_packStore : decode (packStore m s d i) =
    .legal ((storeOpcode m).instr (Reg.ofCode s) (Reg.ofCode d) i) := by
  simp [decode, decodeOpcode_of_store]

theorem decode_packCompute {op : Opcode} (h : computeOpcode mi c = some op) : decode (packCompute mi c r i) =
    .legal (op.instr (Reg.ofCode ((packCompute mi c r i).extractLsb' 26 2)) r i) := by
  simp [decode, decodeOpcode_of_compute, h]

theorem decode_packJump : decode (packJump c i) =
    .legal ((jumpOpcode c).instr (Reg.ofCode ((packJump c i).extractLsb' 26 2))
      (Reg.ofCode ((packJump c i).extractLsb' 24 2)) i) := by
  simp [decode, decodeOpcode_of_jump]

end Packed

/-- The first round-trip law of R75. -/
theorem decode_encode (i : Instr) : decode (encode i) = .legal i := by
  cases i with
  | load d i | loadin1 d i | loadin2 d i | loadi d i => exact decode_packLoad _ d i
  | store i | storein1 i | storein2 i => exact decode_packStore _ 0 0 i
  | move s d => rw [encode, decode_packStore, Reg.ofCode_code, Reg.ofCode_code]; rfl
  | subi d i | addi d i | oplusi d i | ori d i | andi d i | sub d i | add d i | oplus d i | or d i | and d i =>
    exact (decode_packCompute d _ _ i rfl).trans rfl
  | nop => exact decode_packJump 0 0
  | jump i | jumpgt i | jumpeq i | jumpge i | jumplt i | jumpne i | jumple i => exact decode_packJump _ i

/-! ### Packing the fields of a word -/

@[simp] theorem field_zero (lo n : Nat) : field lo 0#n = 0#32 := by simp [field]

/-- A field of a word, put back in its place, is the word under the mask of that field. -/
theorem field_extract (w : Word) (lo n : Nat) :
    field lo (w.extractLsb' lo n) = w &&& field lo (BitVec.allOnes n) := by
  unfold field
  ext k hk
  by_cases hlo : k < lo
  · simp [hlo]
  · simp [hlo, hk, show lo + (k - lo) = k by omega, Bool.and_comm]

section Fields
variable {w : Word}

theorem packLoad_fields (h : w.extractLsb' 30 2 = Family.load.code) :
    packLoad (w.extractLsb' 28 2) (Reg.ofCode (w.extractLsb' 24 2)) (w.extractLsb' 0 24) = w &&& ~~~0x0C000000 := by
  rw [packLoad, ← h, Reg.code_ofCode]
  simp only [field_extract, ← BitVec.and_or_distrib_left]
  rfl

theorem packStore_fields (h : w.extractLsb' 30 2 = Family.store.code) :
    packStore (w.extractLsb' 28 2) 0 0 (w.extractLsb' 0 24) = w &&& ~~~0x0F000000 := by
  rw [packStore, ← h]
  simp only [BitVec.ofNat_eq_ofNat, field_zero, BitVec.or_zero, field_extract, ← BitVec.and_or_distrib_left]
  rfl

theorem packStore_fields_move (h : w.extractLsb' 30 2 = Family.store.code) :
    packStore (w.extractLsb' 28 2) (Reg.ofCode (w.extractLsb' 26 2)).code (Reg.ofCode (w.extractLsb' 24 2)).code 0 =
      w &&& ~~~0x00FFFFFF := by
  rw [packStore, ← h, Reg.code_ofCode, Reg.code_ofCode]
  simp only [BitVec.ofNat_eq_ofNat, field_zero, BitVec.or_zero, field_extract, ← BitVec.and_or_distrib_left]
  rfl

theorem packCompute_fields (h : w.extractLsb' 30 2 = Family.compute.code) :
    packCompute (w.extractLsb' 29 1) (w.extractLsb' 26 3) (Reg.ofCode (w.extractLsb' 24 2)) (w.extractLsb' 0 24) = w := by
  rw [packCompute, ← h, Reg.code_ofCode]
  simp only [field_extract, ← BitVec.and_or_distrib_left]
  exact BitVec.and_allOnes

theorem packJump_fields (h : w.extractLsb' 30 2 = Family.jump.code) :
    packJump (w.extractLsb' 27 3) (w.extractLsb' 0 24) = w &&& ~~~0x07000000 := by
  rw [packJump, ← h]
  simp only [field_extract, ← BitVec.and_or_distrib_left]
  rfl

theorem packJump_fields_nop (h : w.extractLsb' 30 2 = Family.jump.code) :
    packJump (w.extractLsb' 27 3) 0 = w &&& ~~~0x07FFFFFF := by
  rw [packJump, ← h]
  simp only [BitVec.ofNat_eq_ofNat, field_zero, BitVec.or_zero, field_extract, ← BitVec.and_or_distrib_left]
  rfl

end Fields

/-! ### Encoding an instruction of each family -/

theorem loadOpcode_dontCare (m : BitVec 2) : (loadOpcode m).dontCare = 0x0C000000 := by revert m; decide

theorem storeOpcode_dontCare (m : BitVec 2) (hm : m ≠ 3) : (storeOpcode m).dontCare = 0x0F000000 := by
  revert m; decide

theorem computeOpcode_dontCare {mi : BitVec 1} {f : BitVec 3} {op : Opcode} (h : computeOpcode mi f = some op) :
    op.dontCare = 0 := by
  revert mi f op; decide

theorem jumpOpcode_dontCare (c : BitVec 3) (hc : c ≠ 0) : (jumpOpcode c).dontCare = 0x07000000 := by
  revert c; decide

section Encoded
variable (s d : Reg) (i : Imm)

theorem encode_loadOpcode (m : BitVec 2) : encode ((loadOpcode m).instr s d i) = packLoad m d i := by
  obtain rfl | rfl | rfl | rfl : m = 0 ∨ m = 1 ∨ m = 2 ∨ m = 3 := by revert m; decide
  all_goals rfl

theorem encode_storeOpcode (m : BitVec 2) (hm : m ≠ 3) :
    encode ((storeOpcode m).instr s d i) = packStore m 0 0 i := by
  obtain rfl | rfl | rfl : m = 0 ∨ m = 1 ∨ m = 2 := by revert m; decide
  all_goals rfl

theorem encode_computeOpcode {mi : BitVec 1} {f : BitVec 3} {op : Opcode} (h : computeOpcode mi f = some op) :
    encode (op.instr s d i) = packCompute mi f d i := by
  have bit : ∀ x : BitVec 1, x = 0 ∨ x = 1 := by decide
  have codes : ∀ x : BitVec 3, x = 0 ∨ x = 1 ∨ x = 2 ∨ x = 3 ∨ x = 4 ∨ x = 5 ∨ x = 6 ∨ x = 7 := by decide
  obtain rfl | rfl := bit mi
  all_goals
    obtain rfl | rfl | rfl | rfl | rfl | rfl | rfl | rfl := codes f
    all_goals cases h
    all_goals rfl

theorem encode_jumpOpcode (c : BitVec 3) (hc : c ≠ 0) : encode ((jumpOpcode c).instr s d i) = packJump c i := by
  obtain rfl | rfl | rfl | rfl | rfl | rfl | rfl :
    c = 1 ∨ c = 2 ∨ c = 3 ∨ c = 4 ∨ c = 5 ∨ c = 6 ∨ c = 7 := by revert c; decide
  all_goals rfl

end Encoded

/-! ### The round trip from a word -/

/-- Encoding a decoded instruction clears the don't-care bits and keeps the others (R74, R75). -/
theorem encode_of_decode {w : Word} {i : Instr} (h : decode w = .legal i) : encode i = w &&& ~~~i.opcode.dontCare := by
  obtain ⟨op, hop, rfl⟩ := decode_legal_iff.1 h
  have hf : w.extractLsb' 30 2 = op.family.code := by rw [← decodeOpcode_family hop, Family.code_ofCode]
  rw [instr_opcode]
  cases hfam : op.family <;> rw [hfam] at hf
  case load =>
    obtain rfl := Option.some.inj ((decodeOpcode_of_load hf).symm.trans hop)
    rw [encode_loadOpcode, loadOpcode_dontCare, packLoad_fields hf]
  case store =>
    obtain rfl := Option.some.inj ((decodeOpcode_of_store hf).symm.trans hop)
    by_cases hm : w.extractLsb' 28 2 = 3
    · have move := packStore_fields_move hf
      rw [hm] at move ⊢
      exact move
    · rw [encode_storeOpcode _ _ _ _ hm, storeOpcode_dontCare _ hm, packStore_fields hf]
  case compute =>
    rw [decodeOpcode_of_compute hf] at hop
    rw [encode_computeOpcode _ _ _ hop, computeOpcode_dontCare hop, packCompute_fields hf]
    exact BitVec.and_allOnes.symm
  case jump =>
    obtain rfl := Option.some.inj ((decodeOpcode_of_jump hf).symm.trans hop)
    by_cases hc : w.extractLsb' 27 3 = 0
    · have nop := packJump_fields_nop hf
      rw [hc] at nop ⊢
      exact nop
    · rw [encode_jumpOpcode _ _ _ _ hc, jumpOpcode_dontCare _ hc, packJump_fields hf]

theorem canonical_iff {w : Word} :
    canonical w = true ↔ ∃ i, decode w = .legal i ∧ w &&& i.opcode.dontCare = 0 := by
  unfold canonical
  cases decode w <;> simp

/-- Clearing bits that are 0 changes nothing. -/
theorem and_not_of_and_eq_zero {w m : Word} (h : w &&& m = 0) : w &&& ~~~m = w := by
  calc w &&& ~~~m = w &&& m ||| w &&& ~~~m := by rw [h]; exact BitVec.zero_or.symm
    _ = w &&& (m ||| ~~~m) := BitVec.and_or_distrib_left.symm
    _ = w := by rw [BitVec.or_not_self, BitVec.and_allOnes]

/-- The second round-trip law of R75. -/
theorem encode_of_canonical {w : Word} {i : Instr} (h : decode w = .legal i) (hc : canonical w = true) :
    encode i = w := by
  obtain ⟨i', hi', clear⟩ := canonical_iff.1 hc
  obtain rfl : i = i' := Decoded.legal.inj (h.symm.trans hi')
  rw [encode_of_decode h, and_not_of_and_eq_zero clear]

/-- Settles O5: encoding keeps every bit of a word but its don't-care bits, which a canonical word has at 0; the word
0x4F000001 of the spec's vectors, with its S field set, shows why the second law asks for a canonical word. -/
theorem encodeAndDecodeAgree : Obligations.EncodeAndDecodeAgree :=
  ⟨decode_encode, fun _ => canonical_iff, fun _ _ => encode_of_canonical, fun _ _ => encode_of_decode,
    0x4F000001, .load .acc 1, by decide, by decide⟩

/-! ### The opcode bits -/

/-- The word with the bits 31:26 of `w`, which settle its opcode, and 0 below them. -/
def opcodeBits (w : Word) : Word := field 26 (w.extractLsb' 26 6)

/-- A mask of the opcode bits sees the same in a word and in its opcode bits. -/
theorem opcodeBits_and {m : Word} (hm : 0xFC000000 &&& m = m) (w : Word) : opcodeBits w &&& m = w &&& m := by
  have mask : field 26 (BitVec.allOnes 6) = 0xFC000000 := by decide
  rw [opcodeBits, field_extract, mask, BitVec.and_assoc, hm]

theorem extract_opcodeBits (w : Word) (l n : Nat) (hl : 26 ≤ l) :
    (opcodeBits w).extractLsb' l n = w.extractLsb' l n := by
  unfold opcodeBits field
  ext k hk
  by_cases h32 : l + k < 32
  · simp [h32, show ¬ l + k < 26 by omega, show l + k - 26 < 6 by omega, show 26 + (l + k - 26) = l + k by omega]
  · simp [h32, BitVec.getLsbD_of_ge w (l + k) (by omega)]

theorem decodeOpcode_opcodeBits (w : Word) : decodeOpcode (opcodeBits w) = decodeOpcode w :=
  decodeOpcode_congr fun l n hl => extract_opcodeBits w l n hl

/-! ### The opcode map -/

/-- The opcode map of R71: mask, match and opcode of each row. -/
def opcodeMap : List (Word × Word × Opcode) :=
  [(0xF0000000, 0x40000000, .load), (0xF0000000, 0x50000000, .loadin1),
   (0xF0000000, 0x60000000, .loadin2), (0xF0000000, 0x70000000, .loadi),
   (0xF0000000, 0x80000000, .store), (0xF0000000, 0x90000000, .storein1),
   (0xF0000000, 0xA0000000, .storein2), (0xF0000000, 0xB0000000, .move),
   (0xFC000000, 0x08000000, .subi), (0xFC000000, 0x0C000000, .addi),
   (0xFC000000, 0x10000000, .oplusi), (0xFC000000, 0x14000000, .ori),
   (0xFC000000, 0x18000000, .andi), (0xFC000000, 0x28000000, .sub),
   (0xFC000000, 0x2C000000, .add), (0xFC000000, 0x30000000, .oplus),
   (0xFC000000, 0x34000000, .or), (0xFC000000, 0x38000000, .and),
   (0xF8000000, 0xC0000000, .nop), (0xF8000000, 0xC8000000, .jumpgt),
   (0xF8000000, 0xD0000000, .jumpeq), (0xF8000000, 0xD8000000, .jumpge),
   (0xF8000000, 0xE0000000, .jumplt), (0xF8000000, 0xE8000000, .jumpne),
   (0xF8000000, 0xF0000000, .jumple), (0xF8000000, 0xF8000000, .jump)]

theorem opcodeMap_mask : ∀ r ∈ opcodeMap, 0xFC000000 &&& r.1 = r.1 := by decide

/-- The rows of the map against the decoder, over the 64 values of the opcode bits. -/
theorem opcodeMap_row_field :
    ∀ t : BitVec 6, ∀ r ∈ opcodeMap, field 26 t &&& r.1 = r.2.1 → decodeOpcode (field 26 t) = some r.2.2 := by decide

theorem opcodeMap_none_field :
    ∀ t : BitVec 6, (∀ r ∈ opcodeMap, field 26 t &&& r.1 ≠ r.2.1) → decodeOpcode (field 26 t) = none := by decide

/-- The opcode of a row owns every word of the row. -/
theorem decodeOpcode_of_row {w : Word} {r : Word × Word × Opcode} (hr : r ∈ opcodeMap) (h : w &&& r.1 = r.2.1) :
    decodeOpcode w = some r.2.2 := by
  rw [← opcodeBits_and (opcodeMap_mask r hr)] at h
  rw [← decodeOpcode_opcodeBits]
  exact opcodeMap_row_field _ r hr h

/-- No opcode owns a word of no row. -/
theorem decodeOpcode_of_no_row {w : Word} (h : ∀ r ∈ opcodeMap, w &&& r.1 ≠ r.2.1) : decodeOpcode w = none := by
  rw [← decodeOpcode_opcodeBits]
  refine opcodeMap_none_field (w.extractLsb' 26 6) fun r hr => ?_
  rw [← opcodeBits, opcodeBits_and (opcodeMap_mask r hr)]
  exact h r hr

/-- Settles O2: the rows are those of `opcodeMap`, each opcode with the operands of the word. -/
theorem opcodeMapDecodes : Obligations.OpcodeMapDecodes := by
  intro w s d i rows
  have rows_eq : rows = opcodeMap.map fun r => (r.1, r.2.1, r.2.2.instr s d i) := rfl
  rw [rows_eq, List.forall_mem_map, List.forall_mem_map]
  refine ⟨fun r hr h => ?_, fun h => ?_⟩
  · exact decode_legal_iff.2 ⟨r.2.2, decodeOpcode_of_row hr h, rfl⟩
  · exact decode_illegal_iff.2 (decodeOpcode_of_no_row h)

/-! ### The Illegal words -/

/-- Bits 31:26 of the six reserved Compute patterns (R72). -/
def reservedBits : List (BitVec 6) := [0b000000, 0b000001, 0b000111, 0b001000, 0b001001, 0b001111]

theorem decodeOpcode_field_eq_none_iff :
    ∀ t : BitVec 6, decodeOpcode (field 26 t) = none ↔ t ∈ reservedBits := by decide

theorem decode_illegal_iff_reserved {w : Word} : decode w = .illegal ↔ w.extractLsb' 26 6 ∈ reservedBits := by
  rw [decode_illegal_iff, ← decodeOpcode_opcodeBits, opcodeBits, decodeOpcode_field_eq_none_iff]

theorem mem_reservedBits_iff : ∀ t : BitVec 6, t ∈ reservedBits ↔
    t.extractLsb' 4 2 = 0 ∧ t.extractLsb' 0 4 ∈ [0b0000#4, 0b0001#4, 0b0111#4, 0b1000#4, 0b1001#4, 0b1111#4] := by
  decide

/-- A part of a part of a word. -/
theorem extract_extract (w : Word) {l m n k : Nat} (h : l + k ≤ n) :
    (w.extractLsb' m n).extractLsb' l k = w.extractLsb' (m + l) k := by
  ext j hj
  simp [show l + j < n by omega, Nat.add_assoc]

/-- R72's condition on the family bits and on the bits MI and F. -/
theorem decode_illegal_iff_fields {w : Word} : decode w = .illegal ↔
    w.extractLsb' 30 2 = 0 ∧
      w.extractLsb' 26 4 ∈ [0b0000#4, 0b0001#4, 0b0111#4, 0b1000#4, 0b1001#4, 0b1111#4] := by
  rw [decode_illegal_iff_reserved, mem_reservedBits_iff, extract_extract w (by decide), extract_extract w (by decide)]

/-! ### Counting the Illegal words -/

/-- Numbers below `m * b` are the pairs of a quotient below `m` and a remainder below `b`. -/
theorem card_filter_div (p : Nat → Prop) [DecidablePred p] (m b : Nat) (hb : 0 < b) :
    ((Finset.range (m * b)).filter fun n => p (n / b)).card = ((Finset.range m).filter p).card * b := by
  rw [← Finset.card_range b, ← Finset.card_product, Finset.card_range]
  have quotient (q r : Nat) (hr : r < b) : (b * q + r) / b = q := by
    rw [Nat.mul_add_div hb, Nat.div_eq_of_lt hr, Nat.add_zero]
  refine Finset.card_nbij' (fun n => (n / b, n % b)) (fun x => b * x.1 + x.2) ?_ ?_ ?_ ?_
  · intro n hn
    simpa [Nat.div_lt_iff_lt_mul hb, Nat.mod_lt n hb] using hn
  · rintro ⟨q, r⟩ hx
    obtain ⟨⟨hq, hp⟩, hr⟩ : (q < m ∧ p q) ∧ r < b := by simpa using hx
    simpa [← Nat.div_lt_iff_lt_mul hb, quotient q r hr] using And.intro hq hp
  · exact fun n _ => Nat.div_add_mod n b
  · rintro ⟨q, r⟩ hx
    have hr : r < b := by simp_all
    exact Prod.ext (quotient q r hr) (by simp [Nat.mod_eq_of_lt hr])

theorem extract_ofNat_opcode (n : Nat) : (BitVec.ofNat 32 n).extractLsb' 26 6 = BitVec.ofNat 6 (n / 2 ^ 26) := by
  apply BitVec.eq_of_toNat_eq
  simp only [BitVec.extractLsb'_toNat, BitVec.toNat_ofNat, Nat.shiftRight_eq_div_pow]
  omega

/-- There are `2 ^ 26` words for each of the six reserved values of the opcode bits. -/
theorem card_illegal :
    ((Finset.range (2 ^ 32)).filter fun n => decode (BitVec.ofNat 32 n) = .illegal).card = 6 * 2 ^ 26 := by
  have reserved (n : Nat) : decode (BitVec.ofNat 32 n) = .illegal ↔ BitVec.ofNat 6 (n / 2 ^ 26) ∈ reservedBits := by
    rw [decode_illegal_iff_reserved, extract_ofNat_opcode]
  have six : ((Finset.range 64).filter fun t => BitVec.ofNat 6 t ∈ reservedBits).card = 6 := by decide
  rw [Finset.filter_congr fun n _ => reserved n, show 2 ^ 32 = 64 * 2 ^ 26 by rfl,
    card_filter_div (fun t => BitVec.ofNat 6 t ∈ reservedBits) 64 _ (by decide), six]

/-! ### Executing an Illegal word -/

/-- Before the end of the code and within the budget the Fetch stage gives the word at PC (R101 to R103). -/
theorem Machine.fetch_of_code {s : Machine.State} {w : Word} (hw : s.code[s.pc.toNat]? = some w)
    (hb : ∀ l, s.params.stepLimit = some l → s.steps < l) : Machine.fetch s = .word w := by
  have unspent : ¬ s.budgetSpent = true := fun h =>
    have ⟨l, hl, hle⟩ := Machine.budgetSpent_iff.1 h
    absurd (hb l hl) (not_lt.2 hle)
  simp only [Machine.fetch, hw, if_neg unspent]

/-- Settles O3: the opcode bits of an Illegal word are one of six values, each with `2 ^ 26` words, and the step that
fetches one raises the fatal condition. -/
theorem illegalWordsExactly : Obligations.IllegalWordsExactly :=
  ⟨fun _ => decode_illegal_iff_fields, by decide, card_illegal,
    fun _ _ hs hw hb hd => Machine.step_illegal hs (Machine.fetch_of_code hw hb) hd⟩

end Sys2Proof
end

