-- ==== Sys2Proof/Proofs/Writes.lean ====
section
/-! SUPPORT. What one instruction may write: a register or a data word, not both, and everything else stays as it was (R112). -/

namespace Sys2Proof.Machine

/-- An instruction with a destination register stores nothing. -/
theorem dstOf_eq_none_or_storeAddress_eq_none (ins : Instr) (s : State) :
    dstOf ins = none ∨ storeAddress ins s = none := by
  cases ins with
  | store i | storein1 i | storein2 i => exact .inl rfl
  | nop | jump i | jumpgt i | jumpeq i | jumpge i | jumplt i | jumpne i | jumple i => exact .inl rfl
  | load d i | loadin1 d i | loadin2 d i | loadi d i => exact .inr rfl
  | move r d => exact .inr rfl
  | subi d i | addi d i | oplusi d i | ori d i | andi d i => exact .inr rfl
  | sub d i | add d i | oplus d i | or d i | and d i => exact .inr rfl

/-- A commit leaves every register alone but PC and the one it writes. -/
theorem commit_reg_of_not_written {e : Effect} {r : Reg} (s : State) (hr : r ≠ .pc)
    (hw : ∀ v, e.regWrite ≠ some (r, v)) : (commit e s).reg r = s.reg r := by
  rw [commit_reg e s r hr]
  rcases he : e.regWrite with _ | ⟨q, v⟩
  · rfl
  · have hq : r ≠ q := by
      rintro rfl
      exact hw v he
    exact if_neg hq

/-- A data write leaves the bytes of every other word alone. -/
theorem readByte_applyMemWrite_of_not_written {w : Option (Word × Word)} {k : Nat} (s : State)
    (hw : ∀ a v, w = some (a, v) → k / 4 ≠ a.toNat) : (applyMemWrite w s).mem.readByte k = s.mem.readByte k := by
  rcases w with _ | ⟨a, v⟩
  · rfl
  · rw [applyMemWrite, memWrite_mem, readByte_writeWord, if_neg (hw a v rfl)]

/-- An instruction leaves every register alone but PC and its destination. -/
theorem exec_reg_of_ne_dst {ins : Instr} {s t : State} (h : exec ins s = .next t) {r : Reg} (hr : r ≠ .pc)
    (hd : dstOf ins ≠ some r) : t.reg r = s.reg r := by
  have result := exec_cases ins s
  rw [h] at result
  cases result with
  | committed e he => exact commit_reg_of_not_written s hr fun v hv => hd (he.reg r v hv)
  | stopped f _ => exact raiseFatal_reg f s r

/-- An instruction leaves every data byte alone but those of the word at its store address. -/
theorem exec_readByte_of_ne_store {ins : Instr} {s t : State} (h : exec ins s = .next t) {k : Nat}
    (hk : ∀ a, storeAddress ins s = some a → k / 4 ≠ a.toNat) : t.mem.readByte k = s.mem.readByte k := by
  have result := exec_cases ins s
  rw [h] at result
  cases result with
  | committed e he =>
    rw [commit_mem]
    refine readByte_applyMemWrite_of_not_written s fun a v hv => ?_
    obtain ⟨hs, -, -⟩ := he.mem a v hv
    exact hk a hs
  | stopped f _ => rw [raiseFatal_mem]

/-- The only flag an instruction can change is that of its store address. -/
theorem exec_isValid_of_ne_store {ins : Instr} {s t : State} (h : exec ins s = .next t) {a : Word}
    (ha : storeAddress ins s ≠ some a) : t.valid.isValid a = s.valid.isValid a := by
  rw [Bool.eq_iff_iff, exec_isValid h]
  exact or_iff_left fun ⟨hs, _⟩ => ha hs

/-- Settles O39: no instruction carries both a destination and a store address; the frames of the registers, the bytes and
the flags do the rest. -/
theorem oneWritePerStep : Obligations.OneWritePerStep := by
  intro ins s t h
  refine ⟨dstOf_eq_none_or_storeAddress_eq_none ins s, fun r hr hd => ?_, fun k hk => ?_, fun a hs ha => ?_,
    fun a hv => ?_⟩
  · exact exec_reg_of_ne_dst h hr hd
  · exact exec_readByte_of_ne_store h hk
  · exact (exec_isValid h a).2 (.inr ⟨hs, ha⟩)
  · by_contra hs
    exact hv (exec_isValid_of_ne_store h hs)

end Sys2Proof.Machine
end

