-- ==== Sys2Proof/Proofs/FetchEnds.lean ====
section
/-! SUPPORT. The fetch with no instruction at PC: at the end of the code, or beyond it (R102, R181, R182). -/

namespace Sys2Proof.Machine

/-- A fetch just behind the last instruction ends the run, whatever the budget (R181). -/
theorem fetch_at_end {s : State} (h : s.pc.toNat = s.code.length) : fetch s = .ended .endOfCode := by
  have absent : s.code[s.pc.toNat]? = none := List.getElem?_eq_none h.ge
  simp only [fetch, absent, if_neg h.not_gt]

/-- A fetch further on ends the run as one beyond the code, whatever the budget (R182). -/
theorem fetch_beyond_end {s : State} (h : s.code.length < s.pc.toNat) : fetch s = .ended .beyond := by
  have absent : s.code[s.pc.toNat]? = none := List.getElem?_eq_none h.le
  simp only [fetch, absent, if_pos h]

/-- Settles O33: in both places the fetch ends the run, and the step takes that end. -/
theorem runEndsAtEndOfCode : Obligations.RunEndsAtEndOfCode := by
  refine fun s running => ⟨fun atEnd => ?_, fun beyondEnd => ?_⟩
  · exact step_ended running (fetch_at_end atEnd)
  · exact step_ended running (fetch_beyond_end beyondEnd)

end Sys2Proof.Machine
end

