-- ==== Sys2Proof/Proofs/Rendering.lean ====
section
/-! SUPPORT. The rendering of an instruction and how the assembler reads it back: the literal of a rendered immediate, the
tokens of a rendering and the written instruction they make (R81 to R84, R88 to R92). -/

namespace Sys2Proof.Machine

/-! ### The immediate -/

/-- The literal that the rendering of an immediate writes. -/
def renderedLiteral (op : Opcode) (i : Imm) : Literal :=
  if op.signed then { negative := decide (i.toInt < 0), magnitude := i.toInt.natAbs }
  else { negative := false, magnitude := i.toNat }

theorem sext_toInt (i : Imm) : (sext i).toInt = i.toInt := BitVec.toInt_signExtend_of_le (by decide)

/-- A signed immediate lies in the range of a 24-bit number. -/
theorem imm_toInt_bounds (i : Imm) : -0x800000 ≤ i.toInt ∧ i.toInt ≤ 0x7fffff := by
  have lower := BitVec.le_toInt i
  have upper := BitVec.toInt_lt (x := i)
  omega

/-- The rendering of an immediate reads back as its literal. -/
theorem readLiteral_renderImm (op : Opcode) (i : Imm) : readLiteral (renderImm op i) = some (renderedLiteral op i) := by
  have hs := imm_toInt_bounds i
  have hu := i.isLt
  unfold renderImm renderedLiteral
  split
  · rw [sext_toInt, readLiteral_signedDecimal (by omega)]
  · split
    · exact readLiteral_hexadecimal (by omega)
    · exact readLiteral_decimal (by omega)

theorem renderedLiteral_value (op : Opcode) (i : Imm) :
    (renderedLiteral op i).value = if op.signed then i.toInt else (i.toNat : Int) := by
  unfold renderedLiteral
  split
  · simp only [Literal.value, decide_eq_true_eq]
    omega
  · rfl

/-- The opcode accepts the literal of a rendered immediate. -/
theorem renderedLiteral_fault (op : Opcode) (i : Imm) : (renderedLiteral op i).fault op = none := by
  have hs := imm_toInt_bounds i
  have hu := i.isLt
  have sign : ((renderedLiteral op i).negative && !op.signed) = false := by
    cases h : op.signed <;> simp [renderedLiteral, h]
  have range : ¬((renderedLiteral op i).value < -0x800000 ∨ 0xffffff < (renderedLiteral op i).value) := by
    rw [renderedLiteral_value]
    split <;> omega
  rw [Literal.fault, sign, if_neg Bool.false_ne_true, if_neg range]

/-- The field of the literal of a rendered immediate is the immediate. -/
theorem literalField_renderedLiteral (op : Opcode) (i : Imm) : literalField (renderedLiteral op i) = i := by
  rw [literalField, renderedLiteral_value]
  split
  · exact BitVec.ofInt_toInt
  · rw [BitVec.ofInt_natCast, BitVec.ofNat_toNat, BitVec.setWidth_eq]

/-! ### Plain characters -/

theorem plain_digits {base : Nat} (h : 0 < base) (h16 : base ≤ 16) (fuel n : Nat) :
    ∀ c ∈ digits base fuel n, plain c = true := by
  intro c hc
  obtain ⟨m, hm, rfl⟩ := mem_digits h _ _ _ hc
  exact (plain_digitChar (hm.trans_le h16)).1

theorem plain_cons {c : Char} {t : Text} (hc : plain c = true) (ht : ∀ d ∈ t, plain d = true) :
    ∀ d ∈ c :: t, plain d = true := List.forall_mem_cons.2 ⟨hc, ht⟩

theorem plain_renderImm (op : Opcode) (i : Imm) : renderImm op i ≠ [] ∧ ∀ c ∈ renderImm op i, plain c = true := by
  have dec (n : Nat) : decimal n ≠ [] ∧ ∀ c ∈ decimal n, plain c = true :=
    ⟨digits_ne_nil _ _ _, plain_digits (by decide) (by decide) 8 n⟩
  unfold renderImm
  split
  · unfold signedDecimal
    split
    · exact ⟨List.cons_ne_nil _ _, plain_cons rfl (dec _).2⟩
    · exact dec _
  · split
    · exact ⟨List.cons_ne_nil _ _, plain_cons rfl (plain_cons rfl (plain_digits (by decide) (by decide) 8 _))⟩
    · exact dec _

/-! ### The tokens of a rendering -/

/-- The operand tokens of a rendering: source, destination, immediate, each where the instruction carries it. -/
def operandTokens (ins : Instr) : List Text :=
  ((srcOf ins).map regName).toList ++
    (((dstOf ins).map regName).toList ++ ((immOf ins).map (renderImm ins.opcode)).toList)

theorem spaced_eq_flatMap (t : Option Text) : spaced t = t.toList.flatMap (' ' :: ·) := by
  cases t <;> simp [spaced]

/-- A rendering is the mnemonic and the operand tokens, a space before each. -/
theorem render_eq (ins : Instr) : render ins = mnemonic ins.opcode ++ (operandTokens ins).flatMap (' ' :: ·) := by
  simp only [render, operandTokens, spaced_eq_flatMap, List.flatMap_append, List.append_assoc]

/-- The operand tokens are tokens: not empty, and without white space. -/
theorem plain_operandTokens (ins : Instr) : ∀ t ∈ operandTokens ins, t ≠ [] ∧ ∀ c ∈ t, plain c = true := by
  intro t ht
  simp only [operandTokens, List.mem_append, Option.mem_toList, Option.map_eq_some_iff] at ht
  rcases ht with ⟨r, -, rfl⟩ | ⟨r, -, rfl⟩ | ⟨i, -, rfl⟩
  · exact plain_regName r
  · exact plain_regName r
  · exact plain_renderImm _ i

/-- Tokens with single spaces between them are cut apart again. -/
theorem tokens_spaced {t : Text} {ts : List Text} (h : ∀ u ∈ t :: ts, u ≠ [] ∧ ∀ c ∈ u, plain c = true) :
    tokens (t ++ ts.flatMap (' ' :: ·)) = t :: ts := by
  induction ts generalizing t with
  | nil =>
    obtain ⟨hne, hp⟩ := h t (by simp)
    simpa using tokens_plain hp hne
  | cons u ts ih =>
    obtain ⟨hne, hp⟩ := h t (by simp)
    rw [List.flatMap_cons, List.cons_append, tokens_plain_space hp hne, ih fun v hv => h v (by simp [hv])]

theorem tokens_render (ins : Instr) : tokens (render ins) = mnemonic ins.opcode :: operandTokens ins := by
  rw [render_eq, tokens_spaced]
  exact List.forall_mem_cons.2 ⟨plain_mnemonic _, plain_operandTokens ins⟩

/-- The characters of a rendering: spaces, and those of its tokens. -/
theorem mem_render {ins : Instr} {c : Char} (hc : c ∈ render ins) : c = ' ' ∨ plain c = true := by
  simp only [render_eq, List.mem_append, List.mem_flatMap, List.mem_cons] at hc
  rcases hc with hc | ⟨t, ht, rfl | hc⟩
  · exact .inr ((plain_mnemonic _).2 c hc)
  · exact .inl rfl
  · exact .inr ((plain_operandTokens ins t ht).2 c hc)

/-- A rendering is one line without a comment. -/
theorem render_ne_special {ins : Instr} {c : Char} (hc : c ∈ render ins) : c ≠ '\r' ∧ c ≠ '\n' ∧ c ≠ ';' := by
  rcases mem_render hc with rfl | hp
  · decide
  · simp only [plain, Bool.and_eq_true, bne_iff_ne] at hp
    obtain ⟨⟨⟨hr, hn⟩, hs⟩, -⟩ := hp
    exact ⟨hr, hn, hs⟩

/-! ### Reading a rendering -/

section Operands
variable (ins : Instr)

theorem hasSrc_opcode : ins.opcode.hasSrc = (srcOf ins).isSome := by cases ins <;> rfl

theorem hasDst_opcode : ins.opcode.hasDst = (dstOf ins).isSome := by cases ins <;> rfl

theorem hasImm_opcode : ins.opcode.hasImm = (immOf ins).isSome := by cases ins <;> rfl

/-- An instruction is its opcode with the operands it carries. -/
theorem instr_of_operands : ins.opcode.instr ((srcOf ins).getD .pc) ((dstOf ins).getD .pc) ((immOf ins).getD 0) = ins := by
  cases ins <;> rfl

end Operands

theorem takeReg_option (r : Option Reg) (ts : List Text) :
    takeReg r.isSome ((r.map regName).toList ++ ts) = .ok (r, ts) := by
  cases r with
  | none => exact takeReg_none ts
  | some r => exact takeReg_regName r ts

theorem takeImm_option {op : Opcode} {i : Option Imm} (h : op.hasImm = i.isSome) :
    takeImm op (i.map (renderImm op)).toList = .ok (i.map (renderedLiteral op), []) := by
  cases i with
  | none => exact takeImm_none h []
  | some i => exact takeImm_literal h (readLiteral_renderImm op i) (renderedLiteral_fault op i) []

/-- The written instruction that a rendering is read as. -/
def writtenSource (ins : Instr) : SourceInstr where
  opcode := ins.opcode
  src := srcOf ins
  dst := dstOf ins
  imm := (immOf ins).map (renderedLiteral ins.opcode)

theorem readSource_operandTokens (ins : Instr) :
    readSource (mnemonic ins.opcode) (operandTokens ins) = .ok (writtenSource ins) := by
  simp only [readSource, opcodeNamed_mnemonic, operandTokens, hasSrc_opcode, hasDst_opcode, takeReg_option,
    takeImm_option (hasImm_opcode ins), writtenSource]

theorem instrOfSource_writtenSource (ins : Instr) : instrOfSource (writtenSource ins) = ins := by
  have field (i : Imm) : (literalField ∘ renderedLiteral ins.opcode) i = i := literalField_renderedLiteral _ i
  rw [instrOfSource, writtenSource, Option.map_map, funext field, Option.map_id']
  exact instr_of_operands ins

theorem readLine_render (ins : Instr) : readLine (render ins) = .ok (some ins) := by
  have noCr : (render ins).contains '\r' = false := by
    rw [List.contains_eq_mem, decide_eq_false_iff_not]
    exact fun hc => (render_ne_special hc).1 rfl
  have noComment : uncomment (render ins) = render ins := uncomment_plain fun c hc => (render_ne_special hc).2.2
  simp only [readLine, noCr, noComment, tokens_render, readSource_operandTokens, instrOfSource_writtenSource,
    Bool.false_eq_true, if_false]

theorem assemble_render (ins : Instr) : assemble (render ins) = .ok [encode ins] := by
  have oneLine : splitLines (joinCrLf (render ins)) = [render ins] := by
    rw [joinCrLf_plain fun c hc => (render_ne_special hc).1, splitLines_plain fun c hc => (render_ne_special hc).2.1]
  simp only [assemble, oneLine, readLines, readLine_render]
  rfl

theorem disassemble_of_decode {w : Word} {i : Instr} (h : decode w = .legal i) : disassemble w = some (render i) := by
  simp only [disassemble, h]

/-- Settles O8: the assembler cuts a rendering into the tokens it was made of, each of which reads back as the operand it
renders; the codec's round trips do the rest. -/
theorem disassemblyReassembles : Obligations.DisassemblyReassembles := by
  intro w i h
  refine ⟨render i, disassemble_of_decode h, assemble_render i, decode_encode i, fun hc => ?_⟩
  rw [assemble_render, encode_of_canonical h hc]

/-! ### The length of a rendering -/

theorem disassemble_eq_none_iff {w : Word} : disassemble w = none ↔ decode w = .illegal := by
  unfold disassemble
  cases decode w <;> simp

theorem length_spaced_le {t : Option Text} {n : Nat} (h : ∀ u ∈ t, u.length ≤ n) :
    (spaced t).length ≤ if t.isSome then n + 1 else 0 := by
  cases t with
  | none => simp [spaced]
  | some u => simpa [spaced] using h u rfl

theorem length_regName (r : Reg) : (regName r).length ≤ 3 := by cases r <;> decide

/-- An immediate takes eight characters at most: eight digits, a minus sign and seven digits, or `0x` and six digits. -/
theorem length_renderImm (op : Opcode) (i : Imm) : (renderImm op i).length ≤ 8 := by
  have hs := imm_toInt_bounds i
  have hu := i.isLt
  unfold renderImm
  rw [sext_toInt]
  split
  · have seven : (decimal i.toInt.natAbs).length ≤ 7 := length_digits 8 _ 6 (by omega)
    unfold signedDecimal
    split
    · exact Nat.succ_le_succ seven
    · omega
  · split
    · have six : (digits 16 8 i.toNat).length ≤ 6 := length_digits 8 _ 5 (by omega)
      exact Nat.succ_le_succ (Nat.succ_le_succ six)
    · exact length_digits 8 _ 7 (by omega)

/-- The longest rendering of each opcode: the mnemonic, a register name of three characters and an immediate of eight. -/
theorem length_bound (op : Opcode) :
    (mnemonic op).length + (if op.hasSrc then 4 else 0) + (if op.hasDst then 4 else 0) +
      (if op.hasImm then 9 else 0) ≤ 20 := by
  cases op <;> decide

theorem length_render (ins : Instr) : (render ins).length ≤ 20 := by
  have src : (spaced ((srcOf ins).map regName)).length ≤ if ins.opcode.hasSrc then 4 else 0 := by
    rw [hasSrc_opcode, ← Option.isSome_map]
    exact length_spaced_le (by simp +contextual [length_regName])
  have dst : (spaced ((dstOf ins).map regName)).length ≤ if ins.opcode.hasDst then 4 else 0 := by
    rw [hasDst_opcode, ← Option.isSome_map]
    exact length_spaced_le (by simp +contextual [length_regName])
  have imm : (spaced ((immOf ins).map (renderImm ins.opcode))).length ≤ if ins.opcode.hasImm then 9 else 0 := by
    rw [hasImm_opcode, ← Option.isSome_map]
    exact length_spaced_le (by simp +contextual [length_renderImm])
  have bound := length_bound ins.opcode
  simp only [render, List.length_append]
  omega

/-- Settles O9: the operands of each opcode leave room for 20 characters, which `LOADIN1 ACC 16777215` takes. -/
theorem renderingIsBounded : Obligations.RenderingIsBounded := by
  refine ⟨fun w => disassemble_eq_none_iff, fun w text h => ?_, 0x53FFFFFF, _, rfl, by decide⟩
  cases hd : decode w with
  | legal i =>
    obtain rfl := Option.some.inj ((disassemble_of_decode hd).symm.trans h)
    exact length_render i
  | illegal => simp [disassemble_eq_none_iff.2 hd] at h

/-! ### Which literals are accepted -/

/-- R83's sign and range: an opcode without a sign accepts no minus sign, and no opcode accepts a value out of range. -/
theorem literalFault_eq_none_iff (op : Opcode) (l : Literal) :
    l.fault op = none ↔ (op.signed = false → l.negative = false) ∧ -0x800000 ≤ l.value ∧ l.value ≤ 0xffffff := by
  unfold Literal.fault
  split
  · next h =>
    obtain ⟨hneg, hs⟩ : l.negative = true ∧ op.signed = false := by simpa using h
    simp [hneg, hs]
  · next h =>
    have sign : op.signed = false → l.negative = false := fun hs => by simpa [hs] using h
    split
    · next range => exact ⟨nofun, fun ⟨_, lower, upper⟩ => by omega⟩
    · next range => exact ⟨fun _ => ⟨sign, by omega, by omega⟩, fun _ => rfl⟩

/-- The only literal operand of a line is taken exactly when its opcode finds no fault in it. -/
theorem takeImm_ok_iff {op : Opcode} {t : Text} {l : Literal} (h : op.hasImm = true) (hl : readLiteral t = some l) :
    takeImm op [t] = .ok (some l, []) ↔ l.fault op = none := by
  refine ⟨fun htake => ?_, fun hf => takeImm_literal h hl hf []⟩
  simp only [takeImm, h, hl, if_true] at htake
  split at htake
  · assumption
  all_goals cases htake

theorem value_nonneg {l : Literal} (h : l.negative = false) : 0 ≤ l.value := by simp [Literal.value, h]

theorem signed_iff (op : Opcode) : op.signed = true ↔
    op ∈ [.subi, .addi, .sub, .add, .jump, .jumpgt, .jumpeq, .jumpge, .jumplt, .jumpne, .jumple] := by
  cases op <;> decide

/-- Settles O10: acceptance is the absence of a fault, and a literal without a minus sign is no negative number. -/
theorem literalRangeIsChecked : Obligations.LiteralRangeIsChecked := by
  intro op t l h hl
  rw [takeImm_ok_iff h hl, literalFault_eq_none_iff]
  split
  · next hs => simp [(signed_iff op).2 hs]
  · next hs =>
    have unsigned : op.signed = false := Bool.eq_false_iff.2 (mt (signed_iff op).1 hs)
    constructor
    · rintro ⟨hneg, -, hle⟩
      exact ⟨hneg unsigned, hle⟩
    · rintro ⟨hneg, hle⟩
      have := value_nonneg hneg
      exact ⟨fun _ => hneg, by omega, hle⟩

/-! ### The field of a literal -/

theorem literalField_toNat (l : Literal) : ((literalField l).toNat : Int) = l.value % 2 ^ 24 := by
  rw [literalField, BitVec.toNat_ofInt]
  omega

/-- Settles O11: the field is taken modulo `2 ^ 24`, and -1 and 0xffffff differ by that. -/
theorem literalFieldIsValueModulo : Obligations.LiteralFieldIsValueModulo :=
  ⟨literalField_toNat, by decide, by decide, by decide⟩

/-! ### Errors -/

/-- The first line in error, after lines that are read, gives the error of the assembly with its number. -/
theorem readLines_first_error {ls : List Text} {k : Nat} {line : Text} {e : LineError} (hk : ls[k]? = some line)
    (he : readLine line = .error e) (before : ∀ j l, j < k → ls[j]? = some l → ∃ x, readLine l = .ok x) (n : Nat) :
    readLines ls n = .error { line := n + k, error := e } := by
  induction k generalizing ls n with
  | zero =>
    obtain ⟨ls, rfl⟩ := List.head?_eq_some_iff.1 (List.head?_eq_getElem?.trans hk)
    simp only [readLines, he, Nat.add_zero]
  | succ k ih =>
    cases ls with
    | nil => simp at hk
    | cons l ls =>
      obtain ⟨x, hx⟩ := before 0 l (Nat.succ_pos k) rfl
      have rest := ih (by simpa using hk) (fun j m hj hm => before (j + 1) m (by omega) (by simpa using hm)) (n + 1)
      simp only [readLines, hx, rest, Nat.add_right_comm n 1 k, Nat.add_assoc n k 1]

/-- Settles O12: the lines are read in their order from line 1, and no words are written before all are read. -/
theorem firstLineErrorAbortsAssembly : Obligations.FirstLineErrorAbortsAssembly := by
  intro text k line e hk he before
  have stop := readLines_first_error hk he before 1
  rw [Nat.add_comm] at stop
  constructor
  · simp only [assemble, stop]
  · simp only [assembleImage, assemble, stop]

end Sys2Proof.Machine
end

