-- ==== Sys2Proof/Proofs/StepOutcomes.lean ====
section
/-! SUPPORT. The outcomes of an instruction and of a step, each decided by its check: which condition stops an instruction, when
it commits, and the four ways a step of a running state can go (R100 to R103, R115, R180 to R190). -/

namespace Sys2Proof.Machine

/-! ### The accesses of an instruction -/

/-- An instruction reaches one data address at most. -/
theorem access_unique {ins : Instr} {s : State} {a b : Word} (ha : readAddress ins s = some a ∨ storeAddress ins s = some a)
    (hb : readAddress ins s = some b ∨ storeAddress ins s = some b) : a = b := by
  rcases ha with ha | ha <;> rcases hb with hb | hb
  · exact Option.some.inj (ha.symm.trans hb)
  · rw [readAddress_eq_none_of_storeAddress hb] at ha
    cases ha
  · rw [readAddress_eq_none_of_storeAddress ha] at hb
    cases hb
  · exact Option.some.inj (ha.symm.trans hb)

theorem not_readable_of_unwritten {s : State} {a : Word} (hv : s.valid.isValid a = false)
    (hp : s.params.uninitPolicy = .stop) : ¬ Readable s a := by
  rintro ⟨-, h | h⟩
  · simp [hv] at h
  · exact h hp

/-- A fatal condition shuts out a commit. -/
theorem FatalOf.not_effectOf {ins : Instr} {s : State} {f : FatalReason} (hf : FatalOf ins s f) (e : Effect) :
    ¬ EffectOf ins s e := by
  intro he
  cases hf with
  | capacity a h ha =>
    rcases h with h | h
    · exact ha (he.read a h).1.1
    · exact ha (he.mem a _ (he.stores a h)).2.2
  | uninitStop a h ha hv hp => exact not_readable_of_unwritten hv hp (he.read a h).1

/-- An instruction has one fatal condition at most: the capacity check comes before the policy. -/
theorem FatalOf.unique {ins : Instr} {s : State} {f g : FatalReason} (hf : FatalOf ins s f) (hg : FatalOf ins s g) :
    f = g := by
  cases hf with
  | capacity a h ha =>
    cases hg with
    | capacity b h' _ => rw [access_unique h h']
    | uninitStop b h' hb _ _ => exact absurd (access_unique h (.inl h') ▸ hb) ha
  | uninitStop a h ha _ _ =>
    cases hg with
    | capacity b h' hb => exact absurd (access_unique (.inl h) h' ▸ ha) hb
    | uninitStop b h' _ _ _ => rw [access_unique (.inl h) (.inl h')]

/-! ### The outcome of an instruction -/

/-- An instruction with a fatal condition ends the run with it, and does nothing else. -/
theorem exec_stopped {ins : Instr} {s : State} {f : FatalReason} (hf : FatalOf ins s f) :
    exec ins s = .next (raiseFatal f s) := by
  have result := exec_cases ins s
  generalize exec ins s = o at result ⊢
  cases result with
  | committed e he => exact absurd he (hf.not_effectOf e)
  | stopped g hg => rw [hf.unique hg]

/-- An instruction whose access goes through commits. -/
theorem exec_committed {ins : Instr} {s : State} (hr : ∀ a, readAddress ins s = some a → Readable s a)
    (hs : ∀ a, storeAddress ins s = some a → Admitted s a) :
    ∃ e, EffectOf ins s e ∧ exec ins s = .next (commit e s) := by
  have result := exec_cases ins s
  generalize exec ins s = o at result ⊢
  cases result with
  | committed e he => exact ⟨e, he, rfl⟩
  | stopped f hf =>
    cases hf with
    | capacity a h ha => exact absurd (h.elim (fun h => (hr a h).1) (hs a)) ha
    | uninitStop a h _ hv hp => exact absurd (hr a h) (not_readable_of_unwritten hv hp)

/-- An instruction that reads stores nothing, so that its read alone decides whether it commits. -/
theorem exec_committed_of_read {ins : Instr} {s : State} {a : Word} (h : readAddress ins s = some a) (hr : Readable s a) :
    ∃ e, EffectOf ins s e ∧ exec ins s = .next (commit e s) := by
  refine exec_committed (fun b hb => ?_) (fun b hb => ?_)
  · rwa [access_unique (.inl hb) (.inl h)]
  · rw [access_unique (.inr hb) (.inl h)]
    exact hr.1

/-- Every instruction has a next state. -/
theorem exec_next (ins : Instr) (s : State) : ∃ t, exec ins s = .next t := by
  have result := exec_cases ins s
  generalize exec ins s = o at result ⊢
  cases result <;> exact ⟨_, rfl⟩

/-- Settles O28: the policy is the fatal condition of such a read. -/
theorem uninitializedReadUnderStopIsFatal : Obligations.UninitializedReadUnderStopIsFatal :=
  fun _ _ a h ha hv hp => exec_stopped (.uninitStop a h ha hv hp)

/-- Settles O27: at or above the limit an address is not admitted, and without a limit every address is. -/
theorem accessBeyondCapacityIsFatal : Obligations.AccessBeyondCapacityIsFatal := by
  refine ⟨fun ins s a h n hn hle => ?_, fun ins s t hn h hs p a hfatal => ?_⟩
  · exact exec_stopped (.capacity a h fun ha => absurd (ha n hn) (not_lt.2 hle))
  · have result := exec_cases ins s
    rw [h] at result
    cases result with
    | committed e he =>
      rw [commit_status, hs] at hfatal
      split at hfatal <;> cases hfatal
    | stopped f hf =>
      cases hf with
      | capacity b hb hnot => exact hnot fun n hsome => by simp [hn] at hsome
      | uninitStop b => cases hfatal

/-! ### The outcome of a fetch -/

theorem fetch_word_iff {s : State} {w : Word} :
    fetch s = .word w ↔ s.code[s.pc.toNat]? = some w ∧ ∀ l, s.params.stepLimit = some l → s.steps < l := by
  refine ⟨fun h => ⟨code_of_fetch h, fun l hl => ?_⟩, fun ⟨hw, hb⟩ => fetch_of_code hw hb⟩
  by_contra hle
  have spent : s.budgetSpent = true := budgetSpent_iff.2 ⟨l, hl, not_lt.1 hle⟩
  simp [fetch, code_of_fetch h, spent] at h

theorem pc_lt_of_fetch {s : State} {w : Word} (h : fetch s = .word w) : s.pc.toNat < s.code.length :=
  (List.getElem?_eq_some_iff.1 (code_of_fetch h)).1

/-- A spent budget ends the run where an instruction stands at PC (R103). -/
theorem fetch_spent {s : State} {l : Nat} (hpc : s.pc.toNat < s.code.length) (hl : s.params.stepLimit = some l)
    (hle : l ≤ s.steps) : fetch s = .ended .stepLimit := by
  have spent : s.budgetSpent = true := budgetSpent_iff.2 ⟨l, hl, hle⟩
  simp [fetch, List.getElem?_eq_getElem hpc, spent]

/-- What the end of a run at the fetch says of the state. -/
theorem fetch_ended {s : State} {r : HaltReason} (h : fetch s = .ended r) :
    (r = .endOfCode ∧ s.pc.toNat = s.code.length) ∨ (r = .beyond ∧ s.code.length < s.pc.toNat) ∨
      (r = .stepLimit ∧ s.pc.toNat < s.code.length ∧ ∃ l, s.params.stepLimit = some l ∧ l ≤ s.steps) := by
  rcases fetch_cases s with ⟨hpc, hf⟩ | ⟨hpc, hf⟩ | ⟨hpc, hb, hf⟩ | ⟨w, -, -, hf⟩ <;> rw [hf] at h <;> cases h
  · exact .inl ⟨rfl, hpc⟩
  · exact .inr (.inl ⟨rfl, hpc⟩)
  · exact .inr (.inr ⟨rfl, hpc, budgetSpent_iff.1 hb⟩)

/-! ### The outcome of a step -/

/-- The states a step from a running state can lead to. -/
inductive StepResult (s : State) : State → Prop where
  | ended (r : HaltReason) (hf : fetch s = .ended r) : StepResult s (halt r s)
  | illegal (w : Word) (hf : fetch s = .word w) (hd : decode w = .illegal) : StepResult s (raiseFatal (.illegal s.pc w) s)
  | stopped (w : Word) (i : Instr) (hf : fetch s = .word w) (hd : decode w = .legal i) (f : FatalReason)
    (h : FatalOf i s f) : StepResult s (raiseFatal f s)
  | committed (w : Word) (i : Instr) (hf : fetch s = .word w) (hd : decode w = .legal i) (e : Effect)
    (h : EffectOf i s e) : StepResult s (commit e s)

theorem step_result {s t : State} (h : step s = .next t) : s.status = .running ∧ StepResult s t := by
  obtain ⟨hs, ⟨r, hf, rfl⟩ | ⟨w, hf, hd, rfl⟩ | ⟨w, i, hf, hd, he⟩⟩ := step_cases h
  · exact ⟨hs, .ended r hf⟩
  · exact ⟨hs, .illegal w hf hd⟩
  · have result := exec_cases i s
    rw [he] at result
    cases result with
    | committed e effect => exact ⟨hs, .committed w i hf hd e effect⟩
    | stopped f fatal => exact ⟨hs, .stopped w i hf hd f fatal⟩

/-- The status after a commit in a running state. -/
theorem commit_status_of_running {s : State} (hs : s.status = .running) (e : Effect) :
    (commit e s).status = if (commit e s).pc = s.pc then .halted .selfLoop else .running := by
  rw [commit_status, commit_pc, hs]

/-- A commit in a running state ends the run on a self-loop, or leaves it on. -/
theorem commit_status_cases {s : State} (hs : s.status = .running) (e : Effect) :
    ((commit e s).pc = s.pc ∧ (commit e s).status = .halted .selfLoop) ∨
      ((commit e s).pc ≠ s.pc ∧ (commit e s).status = .running) := by
  rw [commit_status_of_running hs]
  by_cases hpc : (commit e s).pc = s.pc
  · exact .inl ⟨hpc, if_pos hpc⟩
  · exact .inr ⟨hpc, if_neg hpc⟩

/-- No fetch ends a run on a self-loop. -/
theorem fetch_ne_selfLoop (s : State) : fetch s ≠ .ended .selfLoop := by
  intro h
  rcases fetch_ended h with ⟨h, -⟩ | ⟨h, -⟩ | ⟨h, -⟩ <;> cases h

/-- Settles O43: the fetch, the decoder and every instruction answer with a next state. -/
theorem runningStatesStep : Obligations.RunningStatesStep := by
  refine ⟨fun s hs => ?_, fun s hs => ?_⟩
  · cases hf : fetch s with
    | ended r => exact ⟨_, step_ended hs hf⟩
    | word w =>
      cases hd : decode w with
      | illegal => exact ⟨_, step_illegal hs hf hd⟩
      | legal i =>
        rw [step_legal hs hf hd]
        exact exec_next i s
  · unfold step
    split
    · next h => exact absurd h hs
    · rfl
    · rfl

/-- Settles O32: before the end of the code and within the budget the fetch gives the word at PC. -/
theorem stepRunsDecodedInstruction : Obligations.StepRunsDecodedInstruction :=
  fun _ _ _ hs hw hb hd => step_legal hs (fetch_word_iff.2 ⟨hw, hb⟩) hd

/-- Settles O34: a spent budget ends the run at the fetch, and no other outcome of a step is that end. -/
theorem stepBudgetHalts : Obligations.StepBudgetHalts := by
  refine ⟨fun s l hs hpc hl hle => step_ended hs (fetch_spent hpc hl hle), fun s t hl h hend => ?_⟩
  obtain ⟨hs, result⟩ := step_result h
  cases result with
  | ended r hf =>
    obtain rfl : r = .stepLimit := by simpa using hend
    obtain ⟨hr, -⟩ | ⟨hr, -⟩ | ⟨-, -, l, hl', -⟩ := fetch_ended hf
    · cases hr
    · cases hr
    · simp [hl] at hl'
  | illegal w hf hd => cases hend
  | stopped w i hf hd f h => cases hend
  | committed w i hf hd e h =>
    rcases commit_status_cases hs e with ⟨-, hst⟩ | ⟨-, hst⟩ <;> rw [hst] at hend <;> cases hend

/-- Settles O36: an end at the fetch and a fatal condition write the status and the `beyond` flag, a commit leaves the run on
or ends it on a self-loop. -/
theorem stopsArePrecise : Obligations.StopsArePrecise := by
  intro s t h hrun hloop
  obtain ⟨hs, result⟩ := step_result h
  cases result with
  | ended r hf => cases r <;> rfl
  | illegal w hf hd => rfl
  | stopped w i hf hd f h => rfl
  | committed w i hf hd e h =>
    rcases commit_status_cases hs e with ⟨-, hst⟩ | ⟨-, hst⟩
    · exact absurd hst hloop
    · exact absurd hst hrun

/-- Settles O37: only a commit counts, and its status is settled by its next-PC. -/
theorem selfLoopHalts : Obligations.SelfLoopHalts := by
  intro s t h
  obtain ⟨hs, result⟩ := step_result h
  cases result with
  | ended r hf =>
    have other : r ≠ .selfLoop := fun hr => fetch_ne_selfLoop s (hr ▸ hf)
    simp [other]
  | illegal w hf hd => simp
  | stopped w i hf hd f h => simp
  | committed w i hf hd e h =>
    rcases commit_status_cases hs e with ⟨hpc, hst⟩ | ⟨hpc, hst⟩ <;> rw [hst]
    · exact ⟨iff_of_true rfl ⟨commit_steps e s, hpc⟩, fun _ hne => absurd hpc hne⟩
    · exact ⟨iff_of_false nofun fun hloop => hpc hloop.2, fun _ _ => rfl⟩

/-- Settles O38: a commit counts one step and leaves the run on or on a self-loop; the other outcomes count none. -/
theorem committedStepsAreCounted : Obligations.CommittedStepsAreCounted := by
  intro s t h
  obtain ⟨hs, result⟩ := step_result h
  cases result with
  | ended r hf =>
    have other : r ≠ .selfLoop := fun hr => fetch_ne_selfLoop s (hr ▸ hf)
    simp [other]
  | illegal w hf hd => simp
  | stopped w i hf hd f h => simp
  | committed w i hf hd e h =>
    refine ⟨fun _ => commit_steps e s, fun hend => ?_⟩
    rcases commit_status_cases hs e with ⟨-, hst⟩ | ⟨-, hst⟩ <;> simp only [hst] at hend <;> simp at hend

/-- Settles O35: each check is the fetch, the decoder, a fatal condition of the instruction, or the commit. -/
theorem checksRunInOrder : Obligations.ChecksRunInOrder := by
  intro s hs
  refine ⟨fun hle => ?_, fun hpc ⟨l, hl, hle⟩ => ?_, fun w hw hb => ?_⟩
  · rcases hle.eq_or_lt with heq | hlt
    · exact ⟨_, step_ended hs (fetch_at_end heq.symm), by simp [heq]⟩
    · exact ⟨_, step_ended hs (fetch_beyond_end hlt), by simp [hlt.ne']⟩
  · exact ⟨_, step_ended hs (fetch_spent hpc hl hle), halt_status _ _⟩
  have hf : fetch s = .word w := fetch_word_iff.2 ⟨hw, hb⟩
  refine ⟨fun hd => ⟨_, step_illegal hs hf hd, rfl⟩, fun i hd => ?_⟩
  rw [step_legal hs hf hd]
  refine ⟨fun a h ha => ⟨_, exec_stopped (.capacity a h ha), rfl⟩, fun a h ha hv => ⟨fun hp => ?_, fun hp => ?_⟩,
    fun hr hst => ?_⟩
  · exact ⟨_, exec_stopped (.uninitStop a h ha hv hp), rfl⟩
  · obtain ⟨e, he, hexec⟩ := exec_committed_of_read h ⟨ha, .inr (by simp [hp])⟩
    refine ⟨_, hexec, ?_⟩
    rw [commit_anomalies, (he.read a h).2, readRecords, if_pos ⟨hv, hp⟩]
  · obtain ⟨e, -, hexec⟩ := exec_committed hr hst
    exact ⟨_, hexec, commit_steps e s, commit_status_of_running hs e⟩

/-! ### The trace of a step -/

theorem traceEvent_eq_some_iff {s : State} {p w : Word} :
    traceEvent s = some (p, w) ↔ s.status = .running ∧ p = s.pc ∧ fetch s = .word w ∧ ∃ i, decode w = .legal i := by
  cases hs : s.status with
  | halted r => simp [traceEvent, hs]
  | fatal f => simp [traceEvent, hs]
  | running =>
    cases hf : fetch s with
    | ended r => simp [traceEvent, hs, hf]
    | word v =>
      cases hd : decode v with
      | illegal =>
        have illegalAt : v = w → ¬∃ i, decode w = .legal i := by
          rintro rfl
          simp [hd]
        simpa [traceEvent, hs, hf, hd] using fun _ => illegalAt
      | legal i =>
        have legalAt : v = w → ∃ i, decode w = .legal i := by
          rintro rfl
          exact ⟨i, hd⟩
        simpa [traceEvent, hs, hf, hd, eq_comm (a := s.pc)] using fun _ => legalAt

/-- Settles O45: the trace reads the fetch and the decoder as the step does. -/
theorem traceIsTheDecodedWord : Obligations.TraceIsTheDecodedWord := by
  intro s p w
  rw [traceEvent_eq_some_iff, fetch_word_iff, and_assoc]

end Sys2Proof.Machine
end

