-- ==== Sys2Proof/Proofs/Invariants.lean ====
section
/-! SUPPORT. The invariant of the machine: its data side under a data write and its controller's side under each outcome of a
step; the states it holds of, and what a never-written word reads as (R24 to R27, R40, R100 to R113, R180 to R190). -/

namespace Sys2Proof.Machine

/-! ### The data side -/

/-- The data side of a state rests on its two maps alone. -/
theorem DataInv.congr {s t : State} (h : DataInv s) (hm : t.mem = s.mem) (hv : t.valid = s.valid) : DataInv t where
  memory := hm ▸ h.memory
  validity := hv ▸ h.validity
  inSpace := hv ▸ h.inSpace
  written := by rw [hm, hv]; exact h.written

/-- A data write keeps the data side: it marks the word whose bytes it writes. -/
theorem DataInv.memWrite {s : State} (h : DataInv s) (a v : Word) : DataInv (memWrite a v s) where
  memory := writeWord_wf h.memory a v
  validity := mark_wf h.validity a
  inSpace n hn := by
    rcases validMap_mem_insert.1 hn with rfl | hn
    · exact a.isLt
    · exact h.inSpace n hn
  written c hc := by
    refine validMap_mem_insert.2 ?_
    rcases mem_writeWord hc with hc | hc
    · exact .inr (h.written c hc)
    · exact .inl hc

theorem DataInv.applyMemWrite {s : State} (h : DataInv s) (w : Option (Word × Word)) : DataInv (applyMemWrite w s) := by
  rcases w with _ | ⟨a, v⟩
  · exact h
  · exact h.memWrite a v

/-- Every step keeps the data side. -/
theorem DataInv.step {s t : State} (hi : DataInv s) (h : step s = .next t) : DataInv t := by
  obtain ⟨-, result⟩ := step_result h
  cases result with
  | ended r hf => exact hi.congr (halt_mem r s) (halt_valid r s)
  | illegal w hf hd => exact hi.congr rfl rfl
  | stopped w i hf hd f h => exact hi.congr rfl rfl
  | committed w i hf hd e h => exact (hi.applyMemWrite e.memWrite).congr (commit_mem e s) (commit_valid e s)

/-! ### Never-written words -/

theorem readByte_of_not_mem {m : Memory} {k : Nat} (h : ∀ c ∈ m, c.1 ≠ k) : m.readByte k = 0 := by
  induction m with
  | nil => rfl
  | cons c m ih =>
    rw [Memory.readByte, if_neg (h c (by simp)), ih fun d hd => h d (by simp [hd])]

/-- A word is settled by the bytes of its address. -/
theorem readWord_congr {m m' : Memory} {a : Word} (h : ∀ k, k / 4 = a.toNat → m.readByte k = m'.readByte k) :
    m.readWord a = m'.readWord a := by
  have byte (j : Nat) (hj : j < 4) : m.readByte (byteKey a j) = m'.readByte (byteKey a j) :=
    h _ (by unfold byteKey; omega)
  simp only [Memory.readWord, byte 0 (by decide), byte 1 (by decide), byte 2 (by decide), byte 3 (by decide)]

/-- Settles O30: no byte is held for a word that was never written, so that it reads as a word of the empty memory. -/
theorem neverWrittenWordHoldsZero : Obligations.NeverWrittenWordHoldsZero := by
  intro s a hi hv
  rw [← readWord_nil a]
  refine readWord_congr fun k hk => readByte_of_not_mem fun c hc hck => ?_
  have marked : s.valid.isValid a = true := isValid_iff.2 (hk ▸ hck ▸ hi.written c hc)
  simp [hv] at marked

/-- An instruction that reads leaves the data as it was. -/
theorem EffectOf.sameData_of_read {ins : Instr} {s : State} {e : Effect} {a : Word} (he : EffectOf ins s e)
    (h : readAddress ins s = some a) : SameData s (commit e s) := by
  have noWrite : e.memWrite = none := by
    rcases hw : e.memWrite with _ | ⟨b, v⟩
    · rfl
    · have hr := readAddress_eq_none_of_storeAddress (he.mem b v hw).1
      simp [h] at hr
  constructor <;> simp [noWrite, Machine.applyMemWrite]

/-- Settles O29: without `stop` the read goes through, and the commit appends the records of the read. -/
theorem uninitializedReadIsRecorded : Obligations.UninitializedReadIsRecorded := by
  intro ins s a hi h ha hv hp
  obtain ⟨e, he, hexec⟩ := exec_committed_of_read h ⟨ha, .inr hp⟩
  have records : (commit e s).anomalies = s.anomalies ++ readRecords s a := by
    rw [commit_anomalies, (he.read a h).2]
  refine ⟨neverWrittenWordHoldsZero s a hi hv, _, hexec, commit_steps e s, he.sameData_of_read h, ?_, ?_, ?_⟩
  · rw [commit_status, commit_pc]
    split
    · next hpc => exact .inr ⟨rfl, hpc⟩
    · exact .inl rfl
  · intro hwarn
    rw [records, readRecords, if_pos ⟨hv, hwarn⟩]
  · intro hsuppress
    rw [records, readRecords, if_neg (by simp [hsuppress]), List.append_nil]

/-! ### The controller's side -/

theorem admitted_congr {s t : State} (h : t.params = s.params) (a : Word) : Admitted t a ↔ Admitted s a := by
  rw [Admitted, Admitted, h]

/-- The records of an instruction name it and an admitted address, and are appended under `warn` only. -/
theorem EffectOf.anomaly {ins : Instr} {s : State} {e : Effect} (he : EffectOf ins s e) {x : Anomaly}
    (hx : x ∈ e.anomaly.toList) : x.index = s.pc ∧ Admitted s x.address ∧ s.params.uninitPolicy = .warn := by
  cases hr : readAddress ins s with
  | none => simp [he.noRead hr] at hx
  | some a =>
    obtain ⟨readable, records⟩ := he.read a hr
    rw [records, readRecords] at hx
    split at hx
    · next h =>
      obtain rfl := List.mem_singleton.1 hx
      exact ⟨rfl, readable.1, h.2⟩
    · cases hx

/-- A stop before the commit keeps the controller's side, when the status it leaves says what holds. -/
theorem ControlInv.of_stop {s t : State} (hi : ControlInv s) (ht : t = { s with status := t.status, beyond := t.beyond })
    (hb : t.beyond = true ↔ t.status = .halted .beyond) (hs : statusMeans t) : ControlInv t := by
  have code : t.code = s.code := by rw [ht]
  have params : t.params = s.params := by rw [ht]
  have steps : t.steps = s.steps := by rw [ht]
  have anomalies : t.anomalies = s.anomalies := by rw [ht]
  exact
    { codeLength := code ▸ hi.codeLength
      budget := by rw [params, steps]; exact hi.budget
      beyond := hb
      status := hs
      records := by
        rw [anomalies, code]
        exact fun x hx => (hi.records x hx).imp_right (admitted_congr params _).2
      policy := by rw [anomalies, params]; exact hi.policy
      recordCount := by rw [anomalies, steps]; exact hi.recordCount }

theorem ControlInv.not_beyond {s : State} (hi : ControlInv s) (hs : s.status = .running) : s.beyond = false := by
  rw [Bool.eq_false_iff, ne_eq, hi.beyond, hs]
  nofun

theorem ControlInv.halt {s : State} {r : HaltReason} (hi : ControlInv s) (hs : s.status = .running)
    (hf : fetch s = .ended r) : ControlInv (halt r s) := by
  refine hi.of_stop (by cases r <;> rfl) ?_ ?_
  · simp [hi.not_beyond hs]
  · obtain ⟨rfl, hpc⟩ | ⟨rfl, hpc⟩ | ⟨rfl, hpc, l, hl, hle⟩ := fetch_ended hf
    · exact hpc
    · exact hpc
    · exact ⟨hpc, l, hl, le_antisymm (hi.budget l hl) hle⟩

theorem ControlInv.raiseFatal {s : State} {f : FatalReason} (hi : ControlInv s) (hs : s.status = .running)
    (hf : statusMeans (raiseFatal f s)) : ControlInv (raiseFatal f s) :=
  hi.of_stop rfl (by simp [hi.not_beyond hs]) hf

/-- What a fatal condition of an instruction says holds in the state it leaves. -/
theorem FatalOf.statusMeans {ins : Instr} {s : State} {f : FatalReason} (h : FatalOf ins s f) :
    statusMeans (raiseFatal f s) := by
  cases h with
  | capacity a h ha => exact ⟨rfl, ha⟩
  | uninitStop a h ha hv hp => exact ⟨rfl, ha, hv, hp⟩

theorem ControlInv.commit {ins : Instr} {s : State} {w : Word} {e : Effect} (hi : ControlInv s) (hs : s.status = .running)
    (hf : fetch s = .word w) (he : EffectOf ins s e) : ControlInv (commit e s) where
  codeLength := by rw [commit_code]; exact hi.codeLength
  budget l hl := by
    rw [commit_params] at hl
    rw [commit_steps]
    exact (fetch_word_iff.1 hf).2 l hl
  beyond := by
    rw [commit_beyond, hi.not_beyond hs]
    rcases commit_status_cases hs e with ⟨-, hst⟩ | ⟨-, hst⟩ <;> rw [hst] <;> simp
  status := by
    rcases commit_status_cases hs e with ⟨hpc, hst⟩ | ⟨-, hst⟩ <;> simp only [Machine.statusMeans, hst]
    rw [hpc, commit_code, commit_steps]
    exact ⟨pc_lt_of_fetch hf, Nat.succ_pos _⟩
  records x hx := by
    rw [commit_code, admitted_congr (commit_params e s)]
    rw [commit_anomalies] at hx
    rcases List.mem_append.1 hx with hx | hx
    · exact hi.records x hx
    · obtain ⟨index, admitted, -⟩ := he.anomaly hx
      exact ⟨index ▸ pc_lt_of_fetch hf, admitted⟩
  policy hne := by
    rw [commit_params]
    obtain ⟨x, hx⟩ := List.exists_mem_of_ne_nil _ hne
    rw [commit_anomalies] at hx
    rcases List.mem_append.1 hx with hx | hx
    · exact hi.policy (List.ne_nil_of_mem hx)
    · exact (he.anomaly hx).2.2
  recordCount := by
    have one : e.anomaly.toList.length ≤ 1 := by cases e.anomaly <;> simp
    rw [commit_anomalies, commit_steps, List.length_append]
    exact Nat.add_le_add hi.recordCount one

/-- Every step keeps the controller's side. -/
theorem ControlInv.step {s t : State} (hi : ControlInv s) (h : step s = .next t) : ControlInv t := by
  obtain ⟨hs, result⟩ := step_result h
  cases result with
  | ended r hf => exact hi.halt hs hf
  | illegal w hf hd => exact hi.raiseFatal hs ⟨rfl, code_of_fetch hf, hd⟩
  | stopped w i hf hd f fatal => exact hi.raiseFatal hs fatal.statusMeans
  | committed w i hf hd e effect => exact hi.commit hs hf effect

/-- Settles O50: each side of the invariant is kept by each outcome of a step. -/
theorem stepKeepsInvariant : Obligations.StepKeepsInvariant :=
  fun _ _ hi h => ⟨hi.data.step h, hi.control.step h⟩

/-! ### Reset and launch -/

/-- What every data write keeps, the data load keeps. -/
theorem loadData_keeps {P : State → Prop} (keep : ∀ a v s, P s → P (memWrite a v s)) (ws : List Word) (n : Nat) {s : State}
    (h : P s) : P (loadData ws n s) := by
  induction ws generalizing n s with
  | nil => exact h
  | cons w ws ih => exact ih (n + 1) (keep _ w s h)

/-- The data load writes the two maps alone. -/
theorem loadData_frame (ws : List Word) (n : Nat) (s : State) :
    loadData ws n s = { s with mem := (loadData ws n s).mem, valid := (loadData ws n s).valid } :=
  loadData_keeps (P := fun t => t = { s with mem := t.mem, valid := t.valid })
    (fun a v _ ht => congrArg (memWrite a v) ht) ws n rfl

/-- A launched state holds its code, its parameters and the loaded data, and is a reset state in all else (R32, R200). -/
theorem launch_frame {code data : List Word} {params : LaunchParams} {s : State} (h : launch code data params = .ok s) :
    s = { State.reset with code := code, params := params, mem := s.mem, valid := s.valid } := by
  obtain ⟨-, -, rfl⟩ := launch_ok h
  exact loadData_frame data 0 _

theorem reset_dataInv (code : List Word) (params : LaunchParams) :
    DataInv { State.reset with code := code, params := params } :=
  { memory := reset_mem_wf, validity := List.Pairwise.nil, inSpace := nofun, written := nofun }

theorem launch_dataInv {code data : List Word} {params : LaunchParams} {s : State} (h : launch code data params = .ok s) :
    DataInv s := by
  obtain ⟨-, -, rfl⟩ := launch_ok h
  exact loadData_keeps (fun a v _ ht => ht.memWrite a v) data 0 (reset_dataInv code params)

theorem launch_controlInv {code data : List Word} {params : LaunchParams} {s : State}
    (h : launch code data params = .ok s) : ControlInv s := by
  obtain ⟨length, -, -⟩ := launch_ok h
  rw [launch_frame h]
  exact
    { codeLength := length
      budget := fun l _ => Nat.zero_le l
      beyond := by simp [State.reset]
      status := trivial
      records := nofun
      policy := fun hne => absurd rfl hne
      recordCount := Nat.zero_le _ }

/-- Settles O52: the data load keeps the data side, and the controller's side starts as at reset. -/
theorem launchMeetsInvariant : Obligations.LaunchMeetsInvariant :=
  fun _ _ _ _ h => ⟨launch_dataInv h, launch_controlInv h⟩

/-- Settles O51: the reset state is launched from no code and no data. -/
theorem resetMeetsInvariant : Obligations.ResetMeetsInvariant :=
  launchMeetsInvariant [] [] {} State.reset rfl

end Sys2Proof.Machine
end

