-- ==== Sys2Proof/Proofs/Runs.lean ====
section
/-! SUPPORT. Runs: what every step keeps, every run keeps; a run under a step budget ends; a data word stays until a store to
its address (R24, R51, R54, R103, R204, R206). -/

namespace Sys2Proof.Machine

/-! ### Steps of a run -/

theorem runFor_succ {s t : State} (h : step s = .next t) (n : Nat) : runFor (n + 1) s = runFor n t := by
  simp only [runFor, h]

/-- A run that has ended stays in its last state. -/
theorem runFor_ended {s : State} (h : s.status ≠ .running) (n : Nat) : runFor n s = s := by
  cases n with
  | zero => rfl
  | succ n => simp only [runFor, runningStatesStep.2 s h]

/-- What every step keeps, every run keeps. -/
theorem runFor_keeps {P : State → Prop} (keep : ∀ s t, P s → step s = .next t → P t) (n : Nat) {s : State} (h : P s) :
    P (runFor n s) := by
  induction n generalizing s with
  | zero => exact h
  | succ n ih =>
    by_cases hs : s.status = .running
    · obtain ⟨t, ht⟩ := runningStatesStep.1 s hs
      rw [runFor_succ ht]
      exact ih (keep s t h ht)
    · rwa [runFor_ended hs]

/-! ### Code and parameters -/

theorem step_code_params {s t : State} (h : step s = .next t) : t.code = s.code ∧ t.params = s.params := by
  obtain ⟨-, result⟩ := step_result h
  cases result with
  | ended r hf => exact ⟨halt_code r s, halt_params r s⟩
  | illegal w hf hd => exact ⟨rfl, rfl⟩
  | stopped w i hf hd f fatal => exact ⟨rfl, rfl⟩
  | committed w i hf hd e effect => exact ⟨commit_code e s, commit_params e s⟩

/-- Settles O41: no outcome of a step writes the code or a parameter. -/
theorem codeAndParametersNeverChange : Obligations.CodeAndParametersNeverChange := by
  intro n s
  refine runFor_keeps (P := fun t => t.code = s.code ∧ t.params = s.params) (fun t u ⟨hcode, hparams⟩ h => ?_) n ⟨rfl, rfl⟩
  obtain ⟨code, params⟩ := step_code_params h
  exact ⟨code.trans hcode, params.trans hparams⟩

/-! ### The step budget -/

/-- A step counts one instruction within the budget, or none. -/
theorem step_steps {s t : State} (h : step s = .next t) :
    (t.steps = s.steps + 1 ∧ ∀ l, s.params.stepLimit = some l → s.steps < l) ∨
      (t.steps = s.steps ∧ t.status ≠ .running) := by
  obtain ⟨-, result⟩ := step_result h
  cases result with
  | ended r hf => exact .inr ⟨halt_steps r s, by simp⟩
  | illegal w hf hd => exact .inr ⟨rfl, by simp⟩
  | stopped w i hf hd f fatal => exact .inr ⟨rfl, by simp⟩
  | committed w i hf hd e effect => exact .inl ⟨commit_steps e s, (fetch_word_iff.1 hf).2⟩

theorem step_steps_le {s t : State} {l : Nat} (h : step s = .next t) (hl : s.params.stepLimit = some l)
    (hle : s.steps ≤ l) : t.steps ≤ l := by
  rcases step_steps h with ⟨counted, within⟩ | ⟨same, -⟩
  · exact counted ▸ within l hl
  · exact same ▸ hle

/-- A run with fewer than `k` instructions of its budget left has ended after `k` steps. -/
theorem runFor_ends {l : Nat} (k : Nat) {s : State} (hl : s.params.stepLimit = some l) (hle : s.steps ≤ l)
    (hk : l < s.steps + k) : (runFor k s).status ≠ .running := by
  induction k generalizing s with
  | zero => exact absurd hk (not_lt.2 hle)
  | succ k ih =>
    by_cases hs : s.status = .running
    · obtain ⟨t, ht⟩ := runningStatesStep.1 s hs
      have hlt : t.params.stepLimit = some l := by rw [(step_code_params ht).2, hl]
      rw [runFor_succ ht]
      rcases step_steps ht with ⟨counted, -⟩ | ⟨-, ended⟩
      · exact ih hlt (step_steps_le ht hl hle) (by omega)
      · rwa [runFor_ended ended]
    · rwa [runFor_ended hs]

/-- Settles O53: no step leaves the budget, and each step of a run uses up one instruction of it or ends the run. -/
theorem stepBudgetBoundsRuns : Obligations.StepBudgetBoundsRuns := by
  intro s l hl hle
  refine ⟨fun n => ?_, runFor_ends _ hl hle (by omega)⟩
  have within : (runFor n s).params.stepLimit = some l ∧ (runFor n s).steps ≤ l := by
    refine runFor_keeps (P := fun t => t.params.stepLimit = some l ∧ t.steps ≤ l) (fun t u ⟨htl, htle⟩ h => ?_) n ⟨hl, hle⟩
    exact ⟨by rw [(step_code_params h).2, htl], step_steps_le h htl htle⟩
  exact within.2

/-! ### Data words -/

/-- An instruction leaves every word alone but the one at its store address. -/
theorem exec_readWord_of_ne_store {ins : Instr} {s t : State} (h : exec ins s = .next t) {a : Word}
    (ha : storeAddress ins s ≠ some a) : t.mem.readWord a = s.mem.readWord a := by
  refine readWord_congr fun k hk => exec_readByte_of_ne_store h fun b hb hkb => ha ?_
  rw [hb, BitVec.eq_of_toNat_eq (hkb.symm.trans hk)]

/-- A step leaves every word and flag alone but those at the store address of the instruction it executes. -/
theorem step_data_of_ne_store {s t : State} (h : step s = .next t) {a : Word}
    (ha : ∀ w ins, s.code[s.pc.toNat]? = some w → decode w = .legal ins → storeAddress ins s ≠ some a) :
    t.mem.readWord a = s.mem.readWord a ∧ t.valid.isValid a = s.valid.isValid a := by
  obtain ⟨-, ⟨r, -, rfl⟩ | ⟨w, -, -, rfl⟩ | ⟨w, i, hf, hd, he⟩⟩ := step_cases h
  · rw [halt_mem, halt_valid]
    exact ⟨rfl, rfl⟩
  · exact ⟨rfl, rfl⟩
  · have other := ha w i (code_of_fetch hf) hd
    exact ⟨exec_readWord_of_ne_store he other, exec_isValid_of_ne_store he other⟩

/-- Settles O54, by induction on the length of the run. -/
theorem runKeepsUnstoredWords : Obligations.RunKeepsUnstoredWords := by
  intro n
  induction n with
  | zero => exact fun s a _ => ⟨rfl, rfl⟩
  | succ n ih =>
    intro s a ha
    by_cases hs : s.status = .running
    · obtain ⟨t, ht⟩ := runningStatesStep.1 s hs
      obtain ⟨word, flag⟩ := step_data_of_ne_store ht fun w ins => ha 0 w ins (Nat.succ_pos n)
      obtain ⟨words, flags⟩ := ih t a fun m w ins hm => by
        rw [← runFor_succ ht]
        exact ha (m + 1) w ins (Nat.succ_lt_succ hm)
      rw [runFor_succ ht]
      exact ⟨words.trans word, flags.trans flag⟩
    · rw [runFor_ended hs]
      exact ⟨rfl, rfl⟩

end Sys2Proof.Machine
end

