-- ==== Sys2Proof/Proofs/ExecuteStage.lean ====
section
/-! SUPPORT. Every instruction has one of four forms: it writes a register, reads a data word into a register, stores ACC, or
only moves PC, its operands being functions of the register file. The launch parameters, the code and the records reach an
instruction through the data accesses and the commit alone, so that claims about changing them are claims about four forms
(R27, R31, R73, R188). -/

namespace Sys2Proof.Machine

/-! ### The four forms -/

/-- The forms of an instruction, each with its operands as functions of the registers. -/
inductive ExecForm (ins : Instr) : Prop where
  | writes (d : Reg) (v : (Reg → Word) → Word) (h : ∀ s, exec ins s = writeReg d (v s.reg) s)
  | reads (d : Reg) (a : (Reg → Word) → Word) (f : (Reg → Word) → Word → Word)
    (h : ∀ s, exec ins s = readToReg d (a s.reg) (f s.reg) s)
  | stores (a : (Reg → Word) → Word) (h : ∀ s, exec ins s = storeAcc (a s.reg) s)
  | moves (target : (Reg → Word) → Option Word) (h : ∀ s, exec ins s = .next (commit { target := target s.reg } s))

theorem jumpIf_form {ins : Instr} {c : Cond} {i : Imm} (h : ∀ s, exec ins s = jumpIf c i s) : ExecForm ins :=
  .moves (fun x => if taken c (x .acc) then some (x .pc + sext i) else none) h

theorem exec_form (ins : Instr) : ExecForm ins := by
  cases ins with
  | load d i => exact .reads d (fun _ => eaDirect i) (fun _ v => v) fun _ => rfl
  | loadin1 d i => exact .reads d (fun x => eaIndexed (x .in1) i) (fun _ v => v) fun _ => rfl
  | loadin2 d i => exact .reads d (fun x => eaIndexed (x .in2) i) (fun _ v => v) fun _ => rfl
  | loadi d i => exact .writes d (fun _ => zext i) fun _ => rfl
  | store i => exact .stores (fun _ => eaDirect i) fun _ => rfl
  | storein1 i => exact .stores (fun x => eaIndexed (x .in1) i) fun _ => rfl
  | storein2 i => exact .stores (fun x => eaIndexed (x .in2) i) fun _ => rfl
  | move r d => exact .writes d (fun x => x r) fun _ => rfl
  | subi d i => exact .writes d (fun x => alu .sub (x d) (sext i)) fun _ => rfl
  | addi d i => exact .writes d (fun x => alu .add (x d) (sext i)) fun _ => rfl
  | oplusi d i => exact .writes d (fun x => alu .xor (x d) (zext i)) fun _ => rfl
  | ori d i => exact .writes d (fun x => alu .or (x d) (zext i)) fun _ => rfl
  | andi d i => exact .writes d (fun x => alu .and (x d) (zext i)) fun _ => rfl
  | sub d i => exact .reads d (fun _ => eaSigned i) (fun x => alu .sub (x d)) fun _ => rfl
  | add d i => exact .reads d (fun _ => eaSigned i) (fun x => alu .add (x d)) fun _ => rfl
  | oplus d i => exact .reads d (fun _ => eaDirect i) (fun x => alu .xor (x d)) fun _ => rfl
  | or d i => exact .reads d (fun _ => eaDirect i) (fun x => alu .or (x d)) fun _ => rfl
  | and d i => exact .reads d (fun _ => eaDirect i) (fun x => alu .and (x d)) fun _ => rfl
  | nop => exact .moves (fun _ => none) fun _ => rfl
  | jump i | jumpgt i | jumpeq i | jumpge i | jumplt i | jumpne i | jumple i => exact jumpIf_form fun _ => rfl

/-! ### What the Execute stage reads -/

/-- What follows the Execute stage: the commit of its effect, or the fatal condition it found. -/
def finish (r : Except FatalReason Effect) (s : State) : Host.Outcome State Fault Refusal :=
  match r with
  | .ok e => .next (commit e s)
  | .error f => .next (raiseFatal f s)

/-- An effect whose record, if it has one, is replaced. -/
def Effect.mapAnomaly (g : Option Anomaly → Option Anomaly) (e : Effect) : Effect := { e with anomaly := g e.anomaly }

/-- Two states with the same registers and capacity, whose reads differ in their records only, execute an instruction to the
same result but for the record. -/
theorem exec_of_same_reads (s s' : State) (ins : Instr) (g : Option Anomaly → Option Anomaly) (hg : g none = none)
    (hreg : s'.reg = s.reg) (hadmits : ∀ a, s'.admits a = s.admits a)
    (hread : ∀ a, dataRead a s' = (dataRead a s).map fun x => (x.1, g x.2)) :
    ∃ r, exec ins s = finish r s ∧ exec ins s' = finish (r.map (Effect.mapAnomaly g)) s' := by
  have hpc : s'.pc = s.pc := congrFun hreg .pc
  have hacc : s'.acc = s.acc := congrFun hreg .acc
  have noRecord (e : Effect) (he : e.anomaly = none) : e.mapAnomaly g = e := by
    rw [Effect.mapAnomaly, he, hg, ← he]
  cases exec_form ins with
  | writes d v h =>
    refine ⟨.ok { regWrite := some (d, v s.reg) }, h s, ?_⟩
    rw [h, hreg, Except.map, noRecord _ rfl]
    rfl
  | reads d a f h =>
    refine ⟨(dataRead (a s.reg) s).map fun x => { regWrite := some (d, f s.reg x.1), anomaly := x.2 }, ?_, ?_⟩
    · rw [h, readToReg]
      cases dataRead (a s.reg) s <;> rfl
    · rw [h, readToReg, hreg, hread]
      cases dataRead (a s.reg) s <;> rfl
  | stores a h =>
    by_cases ha : s.admits (a s.reg) = true
    · refine ⟨.ok { memWrite := some (a s.reg, s.acc) }, ?_, ?_⟩
      · rw [h, storeAcc, if_pos ha]
        rfl
      · rw [h, storeAcc, hreg, hadmits, if_pos ha, hacc, Except.map, noRecord _ rfl]
        rfl
    · refine ⟨.error (.capacity s.pc (a s.reg)), ?_, ?_⟩
      · rw [h, storeAcc, if_neg ha]
        rfl
      · rw [h, storeAcc, hreg, hadmits, if_neg ha, hpc]
        rfl
  | moves target h =>
    refine ⟨.ok { target := target s.reg }, h s, ?_⟩
    rw [h, hreg, Except.map, noRecord _ rfl]
    rfl

/-- Two states with the same registers, data and parameters execute an instruction to the same result. -/
theorem exec_of_same_operands (s s' : State) (ins : Instr) (hreg : s'.reg = s.reg) (hmem : s'.mem = s.mem)
    (hvalid : s'.valid = s.valid) (hparams : s'.params = s.params) :
    ∃ r, exec ins s = finish r s ∧ exec ins s' = finish r s' := by
  have hpc : s'.pc = s.pc := congrFun hreg .pc
  have hadmits (a : Word) : s'.admits a = s.admits a := by rw [State.admits, State.admits, hparams]
  have hread (a : Word) : dataRead a s' = (dataRead a s).map fun x => (x.1, id x.2) := by
    rw [dataRead, hadmits, hvalid, hparams, hmem, hpc, ← dataRead]
    cases dataRead a s <;> rfl
  obtain ⟨r, h, h'⟩ := exec_of_same_reads s s' ins id rfl hreg hadmits hread
  exact ⟨r, h, by cases r <;> exact h'⟩

/-! ### Changing what the Execute stage does not write -/

/-- A state with another code memory, other parameters, another step count and other records. -/
def State.withControl (s : State) (code : List Word) (params : LaunchParams) (steps : Nat) (anomalies : List Anomaly) :
    State :=
  { s with code := code, params := params, steps := steps, anomalies := anomalies }

section WithControl
variable (s : State) (c : List Word) (p : LaunchParams) (n : Nat) (xs : List Anomaly)

@[simp] theorem withControl_pc : (s.withControl c p n xs).pc = s.pc := rfl
@[simp] theorem withControl_mem : (s.withControl c p n xs).mem = s.mem := rfl
@[simp] theorem withControl_valid : (s.withControl c p n xs).valid = s.valid := rfl

@[simp] theorem withControl_reg : (s.withControl c p n xs).reg = s.reg := by
  funext r
  cases r <;> rfl

theorem applyMemWrite_withControl (w : Option (Word × Word)) :
    applyMemWrite w (s.withControl c p n xs) = (applyMemWrite w s).withControl c p n xs := by
  rcases w with _ | ⟨a, v⟩ <;> rfl

theorem setReg_withControl (r : Reg) (v : Word) :
    (s.withControl c p n xs).setReg r v = (s.setReg r v).withControl c p n xs := by
  cases r <;> rfl

theorem applyRegWrite_withControl (w : Option (Reg × Word)) :
    applyRegWrite w (s.withControl c p n xs) = (applyRegWrite w s).withControl c p n xs := by
  rcases w with _ | ⟨r, v⟩
  · rfl
  · exact setReg_withControl s c p n xs r v

/-- A commit writes the same whatever these are, and adds to the count and the records. -/
theorem commit_withControl (e : Effect) :
    commit e (s.withControl c p n xs) = (commit e s).withControl c p (n + 1) (xs ++ e.anomaly.toList) := by
  unfold commit
  rw [applyMemWrite_withControl, applyRegWrite_withControl, withControl_pc]
  split <;> rfl

end WithControl

/-- Settles O42: the Execute stage does not read the count or the records, and the commit only adds to them. -/
theorem recordsDoNotAffectExecution : Obligations.RecordsDoNotAffectExecution := by
  intro ins s t n xs h
  have change : { s with steps := n, anomalies := xs } = s.withControl s.code s.params n xs := rfl
  obtain ⟨r, hs, hs'⟩ := exec_of_same_operands s (s.withControl s.code s.params n xs) ins (by simp) rfl rfl rfl
  rw [h] at hs
  rw [change, hs']
  cases r with
  | error f =>
    cases hs
    exact ⟨_, rfl, fun r => by simp, rfl, rfl, rfl⟩
  | ok e =>
    cases hs
    refine ⟨_, rfl, ?_⟩
    rw [commit_withControl]
    exact ⟨fun r => by rw [withControl_reg], rfl, rfl, rfl⟩

/-! ### The policy -/

/-- The parameters with the policy `suppress`. -/
def suppressing (p : LaunchParams) : LaunchParams := { p with uninitPolicy := .suppress }

/-- Under `suppress` a read gives what it gives under `warn`, without the record. -/
theorem dataRead_suppress {s : State} (hp : s.params.uninitPolicy = .warn) (a : Word) :
    dataRead a (s.withControl s.code (suppressing s.params) s.steps s.anomalies) =
      (dataRead a s).map fun x => (x.1, none) := by
  have hadmits : (s.withControl s.code (suppressing s.params) s.steps s.anomalies).admits a = s.admits a := rfl
  unfold dataRead
  rw [hadmits, withControl_valid, withControl_mem, hp]
  split
  · split <;> rfl
  · rfl

/-- The record of an effect reaches the records alone. -/
theorem commit_mapAnomaly (g : Option Anomaly → Option Anomaly) (e : Effect) (s : State) :
    commit (e.mapAnomaly g) s = { commit e s with anomalies := s.anomalies ++ (g e.anomaly).toList } := by
  have hpc : nextPc s.pc (e.mapAnomaly g) = nextPc s.pc e := rfl
  unfold commit
  rw [hpc]
  split <;> rfl

/-- Settles O31: the Execute stage gives the same result but for the record, which the commit only appends. -/
theorem suppressOnlyDropsRecords : Obligations.SuppressOnlyDropsRecords := by
  intro ins s t hp h
  have change : { s with params := { s.params with uninitPolicy := .suppress } } =
      s.withControl s.code (suppressing s.params) s.steps s.anomalies := rfl
  obtain ⟨r, hs, hs'⟩ := exec_of_same_reads s (s.withControl s.code (suppressing s.params) s.steps s.anomalies)
    ins (fun _ => none) rfl (withControl_reg ..) (fun _ => rfl) (dataRead_suppress hp)
  rw [h] at hs
  rw [change, hs']
  cases r with
  | error f =>
    cases hs
    rfl
  | ok e =>
    cases hs
    have noRecord : (e.mapAnomaly fun _ => none).anomaly.toList = [] := rfl
    rw [Except.map, finish, commit_withControl, commit_mapAnomaly, noRecord, List.append_nil, ← commit_code e s,
      ← commit_steps e s]
    rfl

/-! ### The code -/

/-- An instruction does the same whatever the code memory holds. -/
theorem exec_withCode {ins : Instr} {s t : State} (h : exec ins s = .next t) (c : List Word) :
    exec ins { s with code := c } = .next { t with code := c } := by
  have change : { s with code := c } = s.withControl c s.params s.steps s.anomalies := rfl
  obtain ⟨r, hs, hs'⟩ := exec_of_same_operands s (s.withControl c s.params s.steps s.anomalies) ins (by simp) rfl rfl rfl
  rw [h] at hs
  rw [change, hs']
  cases r with
  | error f =>
    cases hs
    rfl
  | ok e =>
    cases hs
    rw [finish, commit_withControl, ← commit_params e s, ← commit_steps e s, ← commit_anomalies e s]
    rfl

/-! ### Don't-care bits -/

/-- A word that an opcode owns lies in the row of that opcode. -/
theorem row_of_decodeOpcode {w : Word} {op : Opcode} (h : decodeOpcode w = some op) :
    ∃ r ∈ opcodeMap, r.2.2 = op ∧ w &&& r.1 = r.2.1 := by
  by_contra hno
  have noRow : ∀ r ∈ opcodeMap, w &&& r.1 ≠ r.2.1 := fun r hr hw =>
    hno ⟨r, hr, Option.some.inj ((decodeOpcode_of_row hr hw).symm.trans h), hw⟩
  rw [decodeOpcode_of_no_row noRow] at h
  cases h

/-- No mask of the opcode map looks at a don't-care bit of its opcode. -/
theorem opcodeMap_dontCare : ∀ r ∈ opcodeMap, ~~~r.2.2.dontCare &&& r.1 = r.1 := by decide

/-- Words that differ only in the don't-care bits of an opcode belong to it together. -/
theorem decodeOpcode_of_same_care {w w' : Word} {op : Opcode} (h : decodeOpcode w = some op)
    (hw : w &&& ~~~op.dontCare = w' &&& ~~~op.dontCare) : decodeOpcode w' = some op := by
  obtain ⟨r, hr, rfl, hrow⟩ := row_of_decodeOpcode h
  have sameRow : w' &&& r.1 = w &&& r.1 := by
    rw [← opcodeMap_dontCare r hr, ← BitVec.and_assoc, ← BitVec.and_assoc, hw]
  exact decodeOpcode_of_row hr (sameRow.trans hrow)

/-- Words that differ only in don't-care bits decode to the same instruction: they are encoded back to the same word. -/
theorem decode_of_same_care {w w' : Word} {i : Instr} (h : decode w = .legal i)
    (hw : w &&& ~~~i.opcode.dontCare = w' &&& ~~~i.opcode.dontCare) : decode w' = .legal i := by
  obtain ⟨op, hop, hi⟩ := decode_legal_iff.1 h
  have hop' : decodeOpcode w' = some op := decodeOpcode_of_same_care hop (by rwa [hi, instr_opcode] at hw)
  obtain ⟨i', h'⟩ : ∃ i', decode w' = .legal i' := ⟨_, decode_legal_iff.2 ⟨op, hop', rfl⟩⟩
  have sameOpcode : i'.opcode = i.opcode := by
    obtain ⟨op', hop'', hi'⟩ := decode_legal_iff.1 h'
    rw [hi, hi', instr_opcode, instr_opcode, Option.some.inj (hop''.symm.trans hop')]
  have sameWord : encode i' = encode i := by rw [encode_of_decode h, encode_of_decode h', sameOpcode, hw]
  rw [h', ← decode_encode i', sameWord, decode_encode]

theorem fetch_of_get {s : State} {w : Word} (h : s.code[s.pc.toNat]? = some w) :
    fetch s = if s.budgetSpent then .ended .stepLimit else .word w := by
  simp only [fetch, h]

/-- A state steps the same with another word at PC that decodes to the same instruction. -/
theorem step_of_same_decode {s t : State} {w w' : Word} {i : Instr} (hw : s.code[s.pc.toNat]? = some w)
    (hd : decode w = .legal i) (hd' : decode w' = .legal i) (h : step s = .next t) :
    step { s with code := s.code.set s.pc.toNat w' } = .next { t with code := s.code.set s.pc.toNat w' } := by
  obtain ⟨hs, -⟩ := step_cases h
  have hs' : State.status { s with code := s.code.set s.pc.toNat w' } = .running := hs
  have hw' : (s.code.set s.pc.toNat w')[s.pc.toNat]? = some w' :=
    List.getElem?_set_self (List.getElem?_eq_some_iff.1 hw).1
  have fetched := fetch_of_get hw
  have fetched' := fetch_of_get (s := { s with code := s.code.set s.pc.toNat w' }) hw'
  have sameBudget : State.budgetSpent { s with code := s.code.set s.pc.toNat w' } = s.budgetSpent := rfl
  rw [sameBudget] at fetched'
  by_cases spent : s.budgetSpent = true
  · rw [if_pos spent] at fetched fetched'
    rw [step_ended hs fetched] at h
    cases h
    exact step_ended hs' fetched'
  · rw [if_neg spent] at fetched fetched'
    rw [step_legal hs fetched hd] at h
    rw [step_legal hs' fetched' hd']
    exact exec_withCode h _

/-- Settles O4: the decoder looks at no don't-care bit, and nothing after it looks at the word. -/
theorem dontCareBitsAreIgnored : Obligations.DontCareBitsAreIgnored := by
  refine ⟨fun op => by cases op <;> rfl, fun w w' i h hw => ?_⟩
  have h' := decode_of_same_care h hw
  exact ⟨h', fun s t hs => step_of_same_decode hs h h'⟩

end Sys2Proof.Machine
end

