-- ==== Sys2Proof/Proofs/Datapath.lean ====
section
/-! SUPPORT. The datapath in numbers: the extensions of the immediate, the address calculator, the ALU and the comparator (R7,
R105 to R107). -/

namespace Sys2Proof.Machine

/-! ### Extensions -/

theorem zext_eq_append (i : Imm) : zext i = 0x00#8 ++ i := BitVec.setWidth_eq_append (by decide)

theorem sext_eq_append (i : Imm) : sext i = (if i.getLsbD 23 then 0xFF#8 else 0x00#8) ++ i :=
  BitVec.signExtend_eq_append_of_le (by decide)

theorem zext_toNat (i : Imm) : (zext i).toNat = i.toNat := BitVec.toNat_setWidth_of_le (by decide)

/-- The sign of an immediate is its bit 23. -/
theorem imm_msb (i : Imm) : i.msb = true ↔ 2 ^ 23 ≤ i.toNat := by rw [BitVec.msb_eq_decide, decide_eq_true_iff]

theorem sext_toNat (i : Imm) :
    (sext i).toNat = if i.toNat < 2 ^ 23 then i.toNat else i.toNat + (2 ^ 32 - 2 ^ 24) := by
  have high : (sext i).toNat = i.toNat + if i.msb = true then 2 ^ 32 - 2 ^ 24 else 0 := by
    rw [sext, BitVec.toNat_signExtend, BitVec.toNat_setWidth_of_le (by decide)]
  rw [high]
  by_cases negative : 2 ^ 23 ≤ i.toNat
  · rw [if_pos ((imm_msb i).2 negative), if_neg (not_lt.2 negative)]
  · rw [if_neg (mt (imm_msb i).1 negative), if_pos (not_le.1 negative), Nat.add_zero]

/-- Settles O13: the numbers follow from bit 23 of the immediate. -/
theorem extensionsFillTheHighBits : Obligations.ExtensionsFillTheHighBits := by
  refine fun i => ⟨zext_eq_append i, sext_eq_append i, zext_toNat i, ?_⟩
  rw [sext_toInt, BitVec.toInt_eq_toNat_cond]
  split <;> split <;> omega

/-! ### Addresses -/

/-- Settles O14: the three forms of address in numbers; which form an instruction uses is read off the address tables. -/
theorem addressesAreCalculated : Obligations.AddressesAreCalculated := by
  refine fun base i => ⟨zext_toNat i, ?_, sext_toNat i, fun s d => ?_⟩
  · rw [eaIndexed, BitVec.toNat_add, zext_toNat]
  · exact ⟨rfl, rfl, rfl, rfl, rfl, rfl, rfl, rfl, rfl, rfl, rfl⟩

/-! ### ALU and comparator -/

/-- Settles O15: each operation is one of the library's on words. -/
theorem aluComputes : Obligations.AluComputes := by
  refine fun a b => ⟨BitVec.toNat_add a b, ?_, fun k _ => ⟨BitVec.getLsbD_xor, BitVec.getLsbD_or, BitVec.getLsbD_and⟩⟩
  rw [alu, BitVec.toNat_sub]
  omega

/-- A word is a negative number when its bit 31 is set. -/
theorem word_toInt_cases (x : Word) :
    (x.toNat < 2 ^ 31 ∧ x.toInt = x.toNat) ∨ (2 ^ 31 ≤ x.toNat ∧ x.toInt = (x.toNat : Int) - 2 ^ 32) := by
  rw [BitVec.toInt_eq_toNat_cond]
  split
  · exact .inl ⟨by omega, rfl⟩
  · exact .inr ⟨by omega, rfl⟩

theorem word_eq_zero_iff (x : Word) : x = 0 ↔ x.toNat = 0 := BitVec.toNat_inj.symm

/-- Settles O16: each comparison of the signed number, on the two halves of the patterns. -/
theorem comparatorIsSigned : Obligations.ComparatorIsSigned := by
  intro acc
  have sign := word_toInt_cases acc
  have bound := acc.isLt
  refine ⟨rfl, rfl, ?_, ?_, ?_, ?_, ?_, ?_⟩
  · rw [taken, decide_eq_true_iff]
    omega
  · rw [taken, beq_iff_eq, word_eq_zero_iff]
  · rw [taken, decide_eq_true_iff]
    omega
  · rw [taken, decide_eq_true_iff]
    omega
  · rw [taken, bne_iff_ne, ne_eq, word_eq_zero_iff]
  · rw [taken, decide_eq_true_iff]
    omega

end Sys2Proof.Machine
end

