-- ==== Sys2Proof/Proofs/Completion.lean ====
section
/-! SUPPORT. What each instruction does when its accesses go through, from the lemma of the form it shares with others (R120 to
R168). -/

namespace Sys2Proof.Machine

/-! ### Loads and memory forms -/

/-- Settles O17: LOAD writes the word it reads. -/
theorem loadCompletes : Obligations.LoadCompletes :=
  fun d _ _ h => readToReg_readable h d _

/-- Settles O18: the address is made from the base register of the state before the step. -/
theorem indexedLoadsComplete : Obligations.IndexedLoadsComplete :=
  fun d _ _ => ⟨fun h => readToReg_readable h d _, fun h => readToReg_readable h d _⟩

/-- Settles O23: each form writes its ALU operation of the destination and the word read. -/
theorem computeMemoriesComplete : Obligations.ComputeMemoriesComplete := by
  refine fun d i s => ⟨fun h => ⟨?_, ?_⟩, fun h => ⟨?_, ?_, ?_⟩⟩
  · exact readToReg_readable h d (alu .sub (s.reg d))
  · exact readToReg_readable h d (alu .add (s.reg d))
  · exact readToReg_readable h d (alu .xor (s.reg d))
  · exact readToReg_readable h d (alu .or (s.reg d))
  · exact readToReg_readable h d (alu .and (s.reg d))

/-! ### Stores -/

/-- Settles O20: the three stores differ in their address alone. -/
theorem storesComplete : Obligations.StoresComplete :=
  fun _ _ => ⟨storeAcc_admitted, storeAcc_admitted, storeAcc_admitted⟩

/-- A word that was written is read without a record. -/
theorem readRecords_of_valid {s : State} {a : Word} (h : s.valid.isValid a = true) : readRecords s a = [] := by
  simp [readRecords, h]

/-- Settles O44: the store leaves its word readable, and a read of a written word appends no record. -/
theorem storedWordIsLoadedBack : Obligations.StoredWordIsLoadedBack := by
  intro i d s h
  obtain ⟨t, hstore, stored⟩ := storeAcc_admitted h
  have readable : Readable t (eaDirect i) := ⟨(admitted_congr stored.committed.params _).2 h, .inl stored.marked⟩
  obtain ⟨u, hload, loaded⟩ := readToReg_readable readable d (fun v => v)
  rw [stored.stored, readRecords_of_valid stored.marked] at loaded
  exact ⟨t, u, hstore, hload, loaded⟩

/-! ### Instructions without a data access -/

/-- A register-writing form always completes and records nothing. -/
theorem writeReg_completes (d : Reg) (v : Word) (s : State) :
    ∃ t, writeReg d v s = .next t ∧ RegisterWritten s t d v [] :=
  ⟨_, rfl, commit_registerWritten s d v none⟩

/-- Settles O19: LOADI writes the zero-extended literal, whose high 8 bits are 0. -/
theorem loadLiteralCompletes : Obligations.LoadLiteralCompletes :=
  fun d i s => zext_eq_append i ▸ writeReg_completes d (zext i) s

/-- Settles O21: MOVE writes what its source held before the step. -/
theorem moveCompletes : Obligations.MoveCompletes := by
  intro r d s
  cases r with
  | pc => exact writeReg_completes d s.pc s
  | in1 => exact writeReg_completes d s.in1 s
  | in2 => exact writeReg_completes d s.in2 s
  | acc => exact writeReg_completes d s.acc s

/-- Settles O22: each form writes its ALU operation of the destination and the extended immediate. -/
theorem computeImmediatesComplete : Obligations.ComputeImmediatesComplete := by
  refine fun d i s => ⟨?_, ?_, ?_, ?_, ?_⟩
  · exact writeReg_completes d (alu .sub (s.reg d) (sext i)) s
  · exact writeReg_completes d (alu .add (s.reg d) (sext i)) s
  · exact writeReg_completes d (alu .xor (s.reg d) (zext i)) s
  · exact writeReg_completes d (alu .or (s.reg d) (zext i)) s
  · exact writeReg_completes d (alu .and (s.reg d) (zext i)) s

/-! ### Jumps -/

/-- Settles O24: PC plus one is no self-loop. -/
theorem nopAdvances : Obligations.NopAdvances := by
  refine fun s => ⟨_, rfl, commit_onlyPcMoved s none, ?_⟩
  rw [commit_status]
  exact if_neg (succ_ne s.pc)

/-- A jump moves PC to its target when the comparator says so, and to the next index otherwise. -/
theorem jumpIf_completes (c : Cond) (i : Imm) (s : State) (p : Prop) [Decidable p] (h : taken c s.acc = true ↔ p) :
    ∃ t, jumpIf c i s = .next t ∧ OnlyPcMoved s t (if p then s.pc + sext i else s.pc + 1) := by
  refine ⟨_, rfl, ?_⟩
  have moved := commit_onlyPcMoved s (if taken c s.acc then some (s.pc + sext i) else none)
  by_cases hp : p
  · rw [if_pos hp]
    rwa [if_pos (h.2 hp)] at moved ⊢
  · rw [if_neg hp]
    rwa [if_neg (mt h.1 hp)] at moved ⊢

/-- Settles O25: JUMP is the jump on the condition that always holds. -/
theorem jumpIsTaken : Obligations.JumpIsTaken :=
  fun i s => jumpIf_completes .always i s True (iff_of_true rfl trivial)

/-- Settles O26: each condition of the comparator is the sign or the value of ACC. -/
theorem conditionalJumpsComplete : Obligations.ConditionalJumpsComplete := by
  refine fun i s => ⟨?_, ?_, ?_, ?_, ?_, ?_⟩
  · exact jumpIf_completes .gt i s _ decide_eq_true_iff
  · exact jumpIf_completes .eq i s _ beq_iff_eq
  · exact jumpIf_completes .ge i s _ decide_eq_true_iff
  · exact jumpIf_completes .lt i s _ decide_eq_true_iff
  · exact jumpIf_completes .ne i s _ bne_iff_ne
  · exact jumpIf_completes .le i s _ decide_eq_true_iff

end Sys2Proof.Machine
end

