-- ==== Sys2Proof/Proofs/LaunchState.lean ====
section
/-! SUPPORT. The state a run starts from: what the data load leaves at each address, which images start a run, and the codes and
ends a status stands for (R32, R180, R200, R203, R205). -/

namespace Sys2Proof.Machine

/-! ### The data load -/

/-- A data load leaves the words below its first address alone. -/
theorem readWord_loadData_below (ws : List Word) (n : Nat) (s : State) (hn : n + ws.length ≤ 2 ^ 32) {a : Word}
    (ha : a.toNat < n) : (loadData ws n s).mem.readWord a = s.mem.readWord a := by
  induction ws generalizing n s with
  | nil => rfl
  | cons w ws ih =>
    rw [List.length_cons] at hn
    have other : a ≠ BitVec.ofNat 32 n := by
      rintro rfl
      rw [BitVec.toNat_ofNat, Nat.mod_eq_of_lt (by omega)] at ha
      exact lt_irrefl n ha
    rw [loadData, ih (n + 1) _ (by omega) (by omega), memWrite_mem, readWord_writeWord, if_neg other]

/-- A data load leaves its words in order from its first address on (R200). -/
theorem readWord_loadData {ws : List Word} {k : Nat} {w a : Word} (hw : ws[k]? = some w) (n : Nat) (s : State)
    (hn : n + ws.length ≤ 2 ^ 32) (ha : a.toNat = n + k) : (loadData ws n s).mem.readWord a = w := by
  induction ws generalizing n k s with
  | nil => simp at hw
  | cons v ws ih =>
    rw [List.length_cons] at hn
    cases k with
    | zero =>
      obtain rfl : v = w := by simpa using hw
      have here : a = BitVec.ofNat 32 n := by
        rw [← BitVec.toNat_inj, ha, BitVec.toNat_ofNat, Nat.mod_eq_of_lt (by omega), Nat.add_zero]
      rw [loadData, readWord_loadData_below ws (n + 1) _ (by omega) (by omega), memWrite_mem, readWord_writeWord, if_pos here]
    | succ k => exact ih (by simpa using hw) (n + 1) _ (by omega) (by omega)

/-! ### Launch -/

/-- A code file and a data file within the bounds are launched. -/
theorem launch_of_fits {code data : List Word} (params : LaunchParams) (hc : code.length ≤ 2 ^ 32)
    (hd : data.length ≤ 2 ^ 32) : ∃ s, launch code data params = .ok s := by
  rw [launch, if_neg (not_lt.2 hc), if_neg (not_lt.2 hd)]
  exact ⟨_, rfl⟩

/-- The flag of an address without a data word is not set. -/
theorem launch_not_valid {code data : List Word} {params : LaunchParams} {s : State} (h : launch code data params = .ok s)
    {a : Word} (ha : data.length ≤ a.toNat) : s.valid.isValid a = false :=
  Bool.eq_false_iff.2 fun hv => absurd ((launch_isValid h a).1 hv) (not_lt.2 ha)

/-- Settles O48: the data load leaves each word at its address, a word it does not reach was never written, and all else is as
at reset. -/
theorem launchLoadsCodeAndData : Obligations.LaunchLoadsCodeAndData := by
  refine fun code data params => ⟨fun hc hd => launch_of_fits params hc hd, fun s h => ?_⟩
  have frame := launch_frame h
  refine ⟨congrArg State.pc frame, congrArg State.in1 frame, congrArg State.in2 frame, congrArg State.acc frame,
    congrArg State.code frame, congrArg State.params frame, fun a w hw => ⟨?_, ?_⟩, fun a ha => ?_,
    congrArg State.status frame, congrArg State.steps frame, congrArg State.anomalies frame, congrArg State.beyond frame⟩
  · obtain ⟨-, hd, rfl⟩ := launch_ok h
    exact readWord_loadData hw 0 _ (by omega) (Nat.zero_add _).symm
  · exact (launch_isValid h a).2 (List.getElem?_eq_some_iff.1 hw).1
  · have unwritten := launch_not_valid h ha
    exact ⟨neverWrittenWordHoldsZero s a (launch_dataInv h) unwritten, unwritten⟩

/-- Settles O47: at reset both maps are empty. -/
theorem resetState : Obligations.ResetState :=
  ⟨rfl, rfl, rfl, rfl, rfl, rfl, rfl, rfl, rfl, readWord_nil, fun _ => rfl, rfl, rfl, rfl, rfl⟩

/-! ### Images -/

theorem length_imageOfWords (ws : List Word) : (imageOfWords ws).length = 4 * ws.length := by
  induction ws with
  | nil => rfl
  | cons w ws ih =>
    rw [imageOfWords_cons, List.length_append, ih, List.length_cons, wordBytes]
    exact (Nat.add_comm _ _).trans (Nat.mul_succ 4 ws.length).symm

/-- An image without a truncated word is read as a quarter as many words. -/
theorem wordsOfImage_of_whole {bs : List Byte} (h : bs.length % 4 = 0) :
    ∃ ws, wordsOfImage bs = some ws ∧ bs.length = 4 * ws.length := by
  obtain ⟨ws, hws⟩ : ∃ ws, wordsOfImage bs = some ws :=
    Option.ne_none_iff_exists'.1 fun hnone => (wordsOfImage_eq_none_iff bs).1 hnone h
  exact ⟨ws, hws, by rw [← imageOfWords_of_wordsOfImage hws, length_imageOfWords]⟩

/-- Settles O49: the lengths of the images decide whether their words can be read and fit; without code the first fetch is at
the end of the code. -/
theorem truncatedImagesStartNoRun : Obligations.TruncatedImagesStartNoRun := by
  refine ⟨fun code data params => ⟨fun h => ?_, fun hc hd hcl hdl => ?_⟩, fun data params s h => ?_⟩
  · exact launchImages_of_truncated params (h.imp (wordsOfImage_eq_none_iff code).2 (wordsOfImage_eq_none_iff data).2)
  · obtain ⟨cs, hcs, hclen⟩ := wordsOfImage_of_whole hc
    obtain ⟨ds, hds, hdlen⟩ := wordsOfImage_of_whole hd
    rw [launchImages_of_words params hcs hds]
    exact launch_of_fits params (by omega) (by omega)
  · have frame := launch_frame h
    have running : s.status = .running := congrArg State.status frame
    have atEnd : s.pc.toNat = s.code.length := by rw [frame]; rfl
    exact step_ended running (fetch_at_end atEnd)

/-! ### The end of a run -/

/-- Settles O46, by the cases of a status. -/
theorem statusCodesAndEnds : Obligations.StatusCodesAndEnds := by
  refine ⟨rfl, rfl, rfl, rfl, rfl, fun _ _ => rfl, fun _ _ => rfl, fun _ _ => rfl, fun st => ?_, fun st => ?_, fun st => ?_,
    fun st => ?_⟩
  all_goals
    rcases st with _ | r | f
    · simp [Status.runEnd]
    · cases r <;> simp [Status.runEnd]
    · simp [Status.runEnd]

end Sys2Proof.Machine

namespace Sys2Proof

/-- Settles O6: the decoder evaluated on the vectors. -/
theorem specWordsDecode : Obligations.SpecWordsDecode := by
  unfold Obligations.SpecWordsDecode
  decide

end Sys2Proof
end
